-- ==== Sys2Proof/Word.lean ====
section
/-! DEFINITION. The machine's words (spec/00_scope.md R6, R8): all unsigned, all wrapping at their width. -/

namespace Sys2Proof

/-- An 8-bit value: a general register, a timer, a byte of memory, an immediate `nn` (R8). -/
abbrev Byte := BitVec 8

/-- A 16-bit value: `I`, `pc`, a return address, an instruction word (R8). -/
abbrev Word := BitVec 16

/-- The number of a general register, the field `x` or `y` (spec/10_state.md R21). -/
abbrev Reg := BitVec 4

/-- A 4-bit field that is not a register number: the row count `n`, a key's code, a digit (R71). -/
abbrev Nibble := BitVec 4

/-- The 12-bit address immediate `nnn` (R71). -/
abbrev Addr := BitVec 12

end Sys2Proof
end

