-- ==== Sys2Proof/Config.lean ====
section
/-! DEFINITION. What is fixed at construction (spec/00_scope.md R5), the events of the host (R151), and the two free
values: the random byte (R122) and the host's next event (R152).
The two parameters the spec leaves OPEN, STACK_DEPTH and FONT_TABLE, are the fields of `Params`; State carries
them, so that every statement about all states holds for all their values (log 3). -/

namespace Sys2Proof.Machine

/-- What the host can do to the core (spec/50_interfaces.md R151). -/
inductive Event where
  /-- Every item of state goes to its reset value (R153). -/
  | reset
  /-- Copy a program to 0x200 upward (R155). -/
  | load (bytes : List Byte)
  /-- One instruction (R156). Its random byte comes from `HostSide.rndIn` and the free values after it (log 1). -/
  | cycle
  /-- One 60 Hz step of both timers (R157). -/
  | tick
  /-- The key with code `k` goes down or up (R158). -/
  | setKey (k : Nibble) (pressed : Bool)
deriving DecidableEq, Repr, Inhabited

end Sys2Proof.Machine

namespace Sys2Proof.Config

/-- MEM_SIZE: the bytes of memory (R5, R50). -/
def memSize : Nat := 4096

/-- PROGRAM_BASE: where a program is loaded, and the reset value of `pc` (R5, R57). -/
def programBase : Nat := 0x200

/-- FONT_BASE: where the font stands (R5, decision D9). -/
def fontBase : Nat := 0x000

/-- The bytes of FONT_TABLE: 16 glyphs of `glyphSize` bytes (R5, R154). -/
def fontSize : Nat := 80

/-- The bytes of one glyph (R34, R127). -/
def glyphSize : Nat := 5

/-- FB_W: the columns of the frame buffer (R5, R28). -/
abbrev fbWidth : Nat := 64

/-- FB_H: the rows of the frame buffer (R5, R28). -/
abbrev fbHeight : Nat := 32

/-- SHIFT_VARIANT: which shift the hardware has. The spec admits one value (R5, U5; log 14). -/
inductive ShiftVariant where
  /-- Vx is shifted by one in place and Vy is ignored. -/
  | inPlace
deriving DecidableEq, Repr

/-- SHIFT_VARIANT of this hardware (R5). -/
def shiftVariant : ShiftVariant := .inPlace

/-- VF_WRITE_ORDER: the order of a result's write and its flag's write. The spec admits one value (R5, R110; log 14). -/
inductive VfWriteOrder where
  /-- The result is written first and the flag last, so that in VF the flag wins. -/
  | flagLast
deriving DecidableEq, Repr

/-- VF_WRITE_ORDER of this hardware (R5, R110). -/
def vfWriteOrder : VfWriteOrder := .flagLast

/-- The parameters the spec leaves OPEN (R5; spec/92_eei_decisions.md D2, D9). -/
structure Params where
  /-- STACK_DEPTH: how many return addresses the call stack can hold. -/
  stackDepth : Nat
  /-- FONT_TABLE: the bytes that reset places at FONT_BASE. -/
  fontTable : List Byte
deriving DecidableEq, Repr

/-- The default FONT_TABLE, one glyph a line (R34, general knowledge of the spec's author; log 4). -/
def defaultFont : List Byte :=
  [0xF0, 0x90, 0x90, 0x90, 0xF0] ++
  [0x20, 0x60, 0x20, 0x20, 0x70] ++
  [0xF0, 0x10, 0xF0, 0x80, 0xF0] ++
  [0xF0, 0x10, 0xF0, 0x10, 0xF0] ++
  [0x90, 0x90, 0xF0, 0x10, 0x10] ++
  [0xF0, 0x80, 0xF0, 0x10, 0xF0] ++
  [0xF0, 0x80, 0xF0, 0x90, 0xF0] ++
  [0xF0, 0x10, 0x20, 0x40, 0x40] ++
  [0xF0, 0x90, 0xF0, 0x90, 0xF0] ++
  [0xF0, 0x90, 0xF0, 0x10, 0xF0] ++
  [0xF0, 0x90, 0xF0, 0x90, 0x90] ++
  [0xE0, 0x90, 0xE0, 0x90, 0xE0] ++
  [0xF0, 0x80, 0x80, 0x80, 0xF0] ++
  [0xE0, 0x90, 0x90, 0x90, 0xE0] ++
  [0xF0, 0x80, 0xF0, 0x80, 0xF0] ++
  [0xF0, 0x80, 0xF0, 0x80, 0x80]

/-- The spec's default parameters: STACK_DEPTH 16 and the default font (R5, R34). -/
def defaultParams : Params := { stackDepth := 16, fontTable := defaultFont }

/-- The byte the random input carries at the k-th draw for which the host has laid out no byte: a FREE value, any
of the 256 at every draw (R122, R162; log 1). It has no body, so no proof can lean on its value. -/
opaque rndInput : Nat → Byte

/-- The k-th event of a host that has laid out no more events: a FREE value, any of the five at every turn, so that the
endless sequence of them is any sequence at all (R152; log 2). It has no body, so no proof can lean on its value. -/
opaque hostEvent : Nat → Machine.Event

end Sys2Proof.Config
end

