-- ==== Sys2Proof/Syntax.lean ====
section
/-! DEFINITION. The 34 instructions of spec/30_encoding.md R75, one constructor per row of the opcode table, in the
table's order. Every operand has exactly its field's width (R71), so no term is outside the encoding. -/

namespace Sys2Proof

/-- An instruction with its fields (R74, R75). -/
inductive Instr where
  /-- 00E0, CLS: clear the frame buffer (R135). -/
  | cls
  /-- 00EE, RET: return from subroutine (R102). -/
  | ret
  /-- 1nnn, JP nnn: jump (R100). -/
  | jp (nnn : Addr)
  /-- 2nnn, CALL nnn: call subroutine (R101). -/
  | call (nnn : Addr)
  /-- 3xnn, SE Vx, nn: skip if equal to an immediate (R103). -/
  | seImm (x : Reg) (nn : Byte)
  /-- 4xnn, SNE Vx, nn: skip if different from an immediate (R104). -/
  | sneImm (x : Reg) (nn : Byte)
  /-- 5xy0, SE Vx, Vy: skip if two registers are equal (R105). -/
  | seReg (x y : Reg)
  /-- 6xnn, LD Vx, nn: load immediate (R111). -/
  | ldImm (x : Reg) (nn : Byte)
  /-- 7xnn, ADD Vx, nn: add immediate, no flag (R112). -/
  | addImm (x : Reg) (nn : Byte)
  /-- 8xy0, LD Vx, Vy: copy register (R113). -/
  | ldReg (x y : Reg)
  /-- 8xy1, OR Vx, Vy (R114). -/
  | orReg (x y : Reg)
  /-- 8xy2, AND Vx, Vy (R115). -/
  | andReg (x y : Reg)
  /-- 8xy3, XOR Vx, Vy (R116). -/
  | xorReg (x y : Reg)
  /-- 8xy4, ADD Vx, Vy: VF is the carry (R117). -/
  | addReg (x y : Reg)
  /-- 8xy5, SUB Vx, Vy: VF is 1 if no borrow (R118). -/
  | sub (x y : Reg)
  /-- 8xy6, SHR Vx: VF is the bit shifted out; the field `y` is ignored (R119; log 17). -/
  | shr (x y : Reg)
  /-- 8xy7, SUBN Vx, Vy: VF is 1 if no borrow (R120). -/
  | subn (x y : Reg)
  /-- 8xyE, SHL Vx: VF is the bit shifted out; the field `y` is ignored (R121; log 17). -/
  | shl (x y : Reg)
  /-- 9xy0, SNE Vx, Vy: skip if two registers differ (R106). -/
  | sneReg (x y : Reg)
  /-- Annn, LD I, nnn: set the index register (R125). -/
  | ldI (nnn : Addr)
  /-- Bnnn, JP V0, nnn: jump to nnn plus V0 (R107). -/
  | jpV0 (nnn : Addr)
  /-- Cxnn, RND Vx, nn: random byte masked by an immediate (R122). -/
  | rnd (x : Reg) (nn : Byte)
  /-- Dxyn, DRW Vx, Vy, n: draw a sprite by exclusive OR (R136). -/
  | drw (x y : Reg) (n : Nibble)
  /-- Ex9E, SKP Vx: skip if the key is pressed (R140). -/
  | skp (x : Reg)
  /-- ExA1, SKNP Vx: skip if the key is not pressed (R141). -/
  | sknp (x : Reg)
  /-- Fx07, LD Vx, DT: read the delay timer (R146). -/
  | ldVxDt (x : Reg)
  /-- Fx0A, LD Vx, K: wait for a key press (R142, R143). -/
  | ldVxK (x : Reg)
  /-- Fx15, LD DT, Vx: set the delay timer (R147). -/
  | ldDtVx (x : Reg)
  /-- Fx18, LD ST, Vx: set the sound timer (R148). -/
  | ldStVx (x : Reg)
  /-- Fx1E, ADD I, Vx: add a register to the index register (R126). -/
  | addI (x : Reg)
  /-- Fx29, LD F, Vx: point I at a digit's glyph (R127). -/
  | ldF (x : Reg)
  /-- Fx33, LD B, Vx: store three decimal digits (R128). -/
  | ldB (x : Reg)
  /-- Fx55, LD [I], Vx: store V0 to Vx (R130). -/
  | storeRegs (x : Reg)
  /-- Fx65, LD Vx, [I]: load V0 to Vx (R131). -/
  | loadRegs (x : Reg)
deriving DecidableEq, Repr

end Sys2Proof
end

