-- ==== Sys2Proof/WellFormed.lean ====
section
/-! DEFINITION. What must hold of data before the machine's rules speak about it.
The fields of an instruction have the widths of spec/30_encoding.md R71 as their TYPES, so no ill-formed instruction
can be written down; what can be ill-formed is a pair of parameters (R5) and a raw field handed to an assembler. -/

namespace Sys2Proof

/-- A number that a 4-bit field (`x`, `y`, `n`) can hold (R71). -/
def fitsNibble (k : Nat) : Bool := decide (k < 16)

/-- A number that the 8-bit field `nn` can hold (R71). -/
def fitsByte (k : Nat) : Bool := decide (k < 256)

/-- A number that the 12-bit field `nnn` can hold (R71, R73). -/
def fitsAddr (k : Nat) : Bool := decide (k < 4096)

/-- Every operand fits its field (R71, R72). -/
def Instr.wf : Instr → Bool
  | .cls => true
  | .ret => true
  | .jp nnn => fitsAddr nnn.toNat
  | .call nnn => fitsAddr nnn.toNat
  | .seImm x nn => fitsNibble x.toNat && fitsByte nn.toNat
  | .sneImm x nn => fitsNibble x.toNat && fitsByte nn.toNat
  | .seReg x y => fitsNibble x.toNat && fitsNibble y.toNat
  | .ldImm x nn => fitsNibble x.toNat && fitsByte nn.toNat
  | .addImm x nn => fitsNibble x.toNat && fitsByte nn.toNat
  | .ldReg x y => fitsNibble x.toNat && fitsNibble y.toNat
  | .orReg x y => fitsNibble x.toNat && fitsNibble y.toNat
  | .andReg x y => fitsNibble x.toNat && fitsNibble y.toNat
  | .xorReg x y => fitsNibble x.toNat && fitsNibble y.toNat
  | .addReg x y => fitsNibble x.toNat && fitsNibble y.toNat
  | .sub x y => fitsNibble x.toNat && fitsNibble y.toNat
  | .shr x y => fitsNibble x.toNat && fitsNibble y.toNat
  | .subn x y => fitsNibble x.toNat && fitsNibble y.toNat
  | .shl x y => fitsNibble x.toNat && fitsNibble y.toNat
  | .sneReg x y => fitsNibble x.toNat && fitsNibble y.toNat
  | .ldI nnn => fitsAddr nnn.toNat
  | .jpV0 nnn => fitsAddr nnn.toNat
  | .rnd x nn => fitsNibble x.toNat && fitsByte nn.toNat
  | .drw x y n => fitsNibble x.toNat && fitsNibble y.toNat && fitsNibble n.toNat
  | .skp x => fitsNibble x.toNat
  | .sknp x => fitsNibble x.toNat
  | .ldVxDt x => fitsNibble x.toNat
  | .ldVxK x => fitsNibble x.toNat
  | .ldDtVx x => fitsNibble x.toNat
  | .ldStVx x => fitsNibble x.toNat
  | .addI x => fitsNibble x.toNat
  | .ldF x => fitsNibble x.toNat
  | .ldB x => fitsNibble x.toNat
  | .storeRegs x => fitsNibble x.toNat
  | .loadRegs x => fitsNibble x.toNat

/-- The parameters are legal: STACK_DEPTH is at least 1 and FONT_TABLE has 80 bytes (R5). -/
def Config.Params.wf (p : Config.Params) : Bool :=
  decide (1 ≤ p.stackDepth) && decide (p.fontTable.length = Config.fontSize)

end Sys2Proof
end

