-- ==== Sys2Proof/Machine/State.lean ====
section
/-! DEFINITION. Everything the spec gives the machine (spec/10_state.md R20), as plain data, the state after reset
(R34), and the reasons a step can stop. Beside the spec's fifteen items stand the open parameters (`params`, log 3)
and what the outside world will do next (`host`, logs 1 and 2); no other field is the model's own. -/

namespace Sys2Proof.Machine

/-- Memory: the (address, byte) pairs that differ from the reset contents, addresses strictly rising
(R50; `Memory.wf`; log 10). -/
abbrev Memory := List Host.Cell

/-- The frame buffer: 32 rows, top first, each a word of 64 bits whose bit x is the pixel in column x
(R28; log 16). -/
abbrev FrameBuffer := Vector (BitVec 64) Config.fbHeight

/-- `run_state`: what a Cycle does (R30). -/
inductive RunState where
  /-- A Cycle fetches and executes. -/
  | running
  /-- LD Vx,K waits for a new key press; a Cycle does nothing. -/
  | awaitingKey
  /-- A fatal error has stopped the core; only Reset leaves this state. -/
  | halted
deriving DecidableEq, Repr

/-- `err_kind`: the fatal errors of R170. -/
inductive ErrKind where
  /-- No error since reset. -/
  | none
  /-- The fetched word is no instruction (R171). -/
  | unknownOpcode
  /-- CALL on a full stack (R172). -/
  | stackOverflow
  /-- RET on an empty stack (R173). -/
  | stackUnderflow
  /-- Load of a program that does not fit (R174). -/
  | programTooLarge
deriving DecidableEq, Repr

/-- What the outside world will do next. It is the model's own data and no state of the hardware: a statement about
every state is a statement about every order of events, endless ones included, and every random input (R152, R162;
logs 1 and 2). -/
structure HostSide where
  /-- The events the host raises first, in order. -/
  schedule : List Event
  /-- The events the host raises after those, over and over; when there are none, every further event is free. -/
  loop : List Event
  /-- How many free events (`Config.hostEvent`) have been used. -/
  turns : Nat
  /-- The bytes the random input carries at the next RND cycles. -/
  rndIn : List Byte
  /-- How many free random bytes (`Config.rndInput`) have been used. -/
  draws : Nat
deriving DecidableEq, Repr

/-- The state of the machine. -/
structure State where
  /-- `mem` (R50). -/
  mem : Memory
  /-- `V[0]` to `V[15]` (R21). -/
  v : Vector Byte 16
  /-- `I` (R23). -/
  i : Word
  /-- `pc` (R24). -/
  pc : Word
  /-- `stack[0 .. sp-1]`, the live return addresses, oldest first; `sp` is their number (R25; log 6). -/
  stack : List Word
  /-- `DT` (R26). -/
  dt : Byte
  /-- `ST` (R27). -/
  st : Byte
  /-- `fb` (R28). -/
  fb : FrameBuffer
  /-- `keys`: bit k is 1 while key k is pressed (R29). -/
  keys : BitVec 16
  /-- `run_state` (R30). -/
  runState : RunState
  /-- `wait_reg`: the register that a pending key wait will write (R31). -/
  waitReg : Reg
  /-- `err_kind` (R32). -/
  errKind : ErrKind
  /-- `err_addr` (R32). -/
  errAddr : Word
  /-- `err_bits` (R32). -/
  errBits : Word
  /-- STACK_DEPTH and FONT_TABLE, which no step changes (R5; log 3). -/
  params : Config.Params
  /-- What the outside world will do next (logs 1 and 2). -/
  host : HostSide
deriving DecidableEq, Repr

/-- `sp`, the number of live stack entries (R20, R25; log 6). -/
def State.sp (s : State) : Nat := s.stack.length

/-- The state after reset of a machine with the parameters `p` (R34). `waitReg` has no reset value in the spec: 0
is a DESIGN CHOICE (log 5). Memory lists nothing: it reads as its reset contents (log 10). -/
def State.resetWith (p : Config.Params) (host : HostSide) : State :=
  { mem := []
    v := Vector.replicate 16 0
    i := 0
    pc := BitVec.ofNat 16 Config.programBase
    stack := []
    dt := 0
    st := 0
    fb := Vector.replicate Config.fbHeight 0
    keys := 0
    runState := .running
    waitReg := 0
    errKind := .none
    errAddr := 0
    errBits := 0
    params := p
    host := host }

/-- The machine right after reset, with the spec's default parameters (R34, R190; log 3) and a host that has laid
out nothing, so that every event and every random byte is free (DESIGN CHOICE, logs 1 and 2). -/
def State.reset : State :=
  State.resetWith Config.defaultParams { schedule := [], loop := [], turns := 0, rndIn := [], draws := 0 }

/-- The reasons the model stops with a fault: there are none. Each of the four fatal errors leads to a state the spec
describes, Halted with the error latch written, and so is a NEXT state (R179; log 7); nothing else fails (R94, R175).
Safe: no step of the machine ends here. -/
inductive Fault where
deriving DecidableEq, Repr

/-- The reasons the model has no meaning to give. -/
inductive Refusal where
  /-- Raised by a refused arm of exec for an instruction that has no meaning yet, by its mnemonic in the opcode
  table. No arm raises it now: all 34 instructions have their meaning. Safe: the model stops where the hardware goes on. -/
  | notModelled (mnemonic : String)
deriving DecidableEq, Repr

/-- What a step or a meaning answers. -/
abbrev Result := Host.Outcome State Fault Refusal

end Sys2Proof.Machine
end

