-- ==== Sys2Proof/Machine/Ops.lean ====
section
/-! DEFINITION. The named operations over memory, registers, the program counter, the call stack, the frame buffer
and the keypad (the primitives of spec/00_scope.md R7), and the one way a fatal error is taken and left. -/

namespace Sys2Proof.Machine

/-! ## Memory (spec/20_memory.md) -/

/-- What an unlisted address reads as: its reset contents, the font at FONT_BASE and zero elsewhere (R34; log 10). -/
def Memory.background (p : Config.Params) (a : Nat) : Byte :=
  if Config.fontBase ≤ a ∧ a < Config.fontBase + Config.fontSize then p.fontTable.getD (a - Config.fontBase) 0 else 0

/-- The byte listed for an address, if any. -/
def Memory.lookup : Memory → Nat → Option Byte
  | [], _ => none
  | (b, w) :: m, a => if a = b then some w else lookup m a

/-- The byte at an address below 4096. -/
def Memory.read (p : Config.Params) (m : Memory) (a : Nat) : Byte :=
  (m.lookup a).getD (Memory.background p a)

/-- List a byte for an address, keeping the addresses strictly rising. -/
def Memory.insert : Memory → Nat → Byte → Memory
  | [], a, w => [(a, w)]
  | (b, u) :: m, a, w =>
    if a < b then (a, w) :: (b, u) :: m
    else if a = b then (a, w) :: m
    else (b, u) :: insert m a w

/-- List nothing for an address. -/
def Memory.erase : Memory → Nat → Memory
  | [], _ => []
  | (b, u) :: m, a => if a = b then erase m a else (b, u) :: erase m a

/-- Set the byte at an address below 4096. Writing what the unlisted address reads as removes its entry, so that equal
memories are equal lists. -/
def Memory.write (p : Config.Params) (m : Memory) (a : Nat) (w : Byte) : Memory :=
  if w = Memory.background p a then m.erase a else m.insert a w

/-- The canonical form: addresses strictly rising and in range, and no entry equal to what its unlisted address
reads as. -/
abbrev Memory.wf (p : Config.Params) (m : Memory) : Prop :=
  m.Pairwise (fun c d => c.1 < d.1) ∧ ∀ c ∈ m, c.1 < Config.memSize ∧ c.2 ≠ Memory.background p c.1

/-- `MemRead(a, 1)`: any address, reduced to 12 bits at the access (R51, R52). -/
def State.readByte (s : State) (a : Nat) : Byte := s.mem.read s.params (a % Config.memSize)

/-- `MemRead(a, 2)`: big-endian, each byte's address reduced on its own (R52, R54). -/
def State.readWord (s : State) (a : Nat) : Word := wordOfBytes (s.readByte a) (s.readByte (a + 1))

/-- `MemWrite(a, 1, w)`: any address, reduced to 12 bits at the access; no address is protected (R51, R53, R58). -/
def State.writeByte (s : State) (a : Nat) (w : Byte) : State :=
  { s with mem := s.mem.write s.params (a % Config.memSize) w }

/-- Write bytes at rising addresses from `a` on (R155). -/
def State.writeBytes (s : State) (a : Nat) : List Byte → State
  | [] => s
  | w :: ws => (s.writeByte a w).writeBytes (a + 1) ws

/-- The instruction word at `pc`, whatever the value of `pc` (R55, R70). -/
def State.fetchWord (s : State) : Word := s.readWord s.pc.toNat

/-! ## Registers and the program counter -/

/-- `V[x]` (R21). -/
def State.reg (s : State) (x : Reg) : Byte := s.v.get x.toFin

/-- `V[x] <- w` (R21). -/
def State.setReg (s : State) (x : Reg) (w : Byte) : State := { s with v := s.v.set x.toNat w x.isLt }

/-- `I <- w` (R23). -/
def State.setI (s : State) (w : Word) : State := { s with i := w }

/-- `pc <- npc`, the advance of every cycle before its effect (R92). -/
def State.advance (s : State) : State := { s with pc := s.pc + 2 }

/-- `pc <- target` (R7). -/
def State.jump (s : State) (target : Word) : State := { s with pc := target }

/-- A skip: `pc` moves a further 2 bytes if the condition holds (R103). -/
def State.skipIf (s : State) (c : Bool) : State := if c then { s with pc := s.pc + 2 } else s

/-- `DT <- w` (R147). -/
def State.setDt (s : State) (w : Byte) : State := { s with dt := w }

/-- `ST <- w` (R148). -/
def State.setSt (s : State) (w : Byte) : State := { s with st := w }

/-! ## The call stack (spec/10_state.md R25) -/

/-- `push(w)` where the stack is not full. -/
def State.push (s : State) (w : Word) : State := { s with stack := s.stack ++ [w] }

/-- `pop()`: the newest entry and the state without it; `none` where the stack is empty. -/
def State.pop (s : State) : Option (Word × State) :=
  match s.stack.getLast? with
  | some w => some (w, { s with stack := s.stack.dropLast })
  | none => none

/-! ## The frame buffer (spec/10_state.md R28) -/

/-- The pixel in column `x` and row `y`. -/
def FrameBuffer.pixel (fb : FrameBuffer) (x : Fin Config.fbWidth) (y : Fin Config.fbHeight) : Bool :=
  fb[y].getLsbD x.val

/-- `fb[y][x] <- fb[y][x] ^ 1`. -/
def FrameBuffer.toggle (fb : FrameBuffer) (x : Fin Config.fbWidth) (y : Fin Config.fbHeight) : FrameBuffer :=
  fb.set y.val (fb[y] ^^^ (1#64 <<< x.val)) y.isLt

/-- Every pixel off. -/
def FrameBuffer.clear : FrameBuffer := Vector.replicate Config.fbHeight 0

/-! ## The keypad (spec/10_state.md R29) -/

/-- `keys[k]`. -/
def State.key (s : State) (k : Nibble) : Bool := s.keys.getLsbD k.toNat

/-- `keys[k] <- pressed` (R158). -/
def State.writeKey (s : State) (k : Nibble) (pressed : Bool) : State :=
  { s with keys := if pressed then s.keys ||| (1#16 <<< k.toNat) else s.keys &&& ~~~(1#16 <<< k.toNat) }

/-! ## The random input (spec/50_interfaces.md R162) -/

/-- `rnd` of the cycle that executes RND: the byte the host has laid out, else a free value (R122; log 1). -/
def State.rndByte (s : State) : Byte :=
  match s.host.rndIn with
  | r :: _ => r
  | [] => Config.rndInput s.host.draws

/-- The random byte has been used: the next draw is another one, unrelated (R122; log 1). -/
def State.useRnd (s : State) : State :=
  match s.host.rndIn with
  | _ :: rs => { s with host := { s.host with rndIn := rs } }
  | [] => { s with host := { s.host with draws := s.host.draws + 1 } }

/-! ## Fatal errors (spec/60_exceptions.md R179, R181) -/

/-- `raise kind(addr, bits)` in the event that began in state `s`: every write of the event is discarded, the latch is
written and the core halts (R179). The caller hands in the state from BEFORE the event. -/
def State.raise (s : State) (kind : ErrKind) (addr bits : Word) : State :=
  { s with errKind := kind, errAddr := addr, errBits := bits, runState := .halted }

/-- The Reset event, the one way out of Halted: every item of state goes to its reset value (R153, R181). The
parameters stay (R5), and so does what the outside world will do (log 15). -/
def State.resetEvent (s : State) : State := State.resetWith s.params s.host

end Sys2Proof.Machine
end

