-- ==== Sys2Proof/Machine/Operands.lean ====
section
/-! DEFINITION. The operand forms (spec/30_encoding.md R73): a register operand is `V[x]`, read by `State.reg`; every
immediate is zero-extended; the one addressing mode is `I` plus a small offset; two instructions use the low nibble
of a register. -/

namespace Sys2Proof.Machine

/-- `zext_16(nnn)` (R73). -/
def zextAddr (nnn : Addr) : Word := nnn.setWidth 16

/-- `zext_16` of a register's value (R107, R126). -/
def zextByte (w : Byte) : Word := w.setWidth 16

/-- `zext_8` of a key's code (R143). -/
def zextNibble (k : Nibble) : Byte := k.setWidth 8

/-- `w[3:0]`: the key SKP and SKNP test, the digit LD F,Vx shows (R127, R140; decisions D7, D8). -/
def lowNibble (w : Byte) : Nibble := w.extractLsb' 0 4

/-- The address `I + k`, not yet reduced to 12 bits (R51, R65). -/
def State.indexed (s : State) (k : Nat) : Nat := s.i.toNat + k

/-- `V[k]` by number, for the block transfers (R130, R131). -/
def regOfNat (k : Nat) : Reg := BitVec.ofNat 4 k

/-- The hundreds digit (R128). -/
def bcdHundreds (w : Byte) : Byte := BitVec.ofNat 8 (w.toNat / 100)

/-- The tens digit (R128). -/
def bcdTens (w : Byte) : Byte := BitVec.ofNat 8 (w.toNat / 10 % 10)

/-- The units digit (R128). -/
def bcdUnits (w : Byte) : Byte := BitVec.ofNat 8 (w.toNat % 10)

/-- The address of a digit's glyph (R127). -/
def glyphAddr (d : Nibble) : Word := BitVec.ofNat 16 (Config.fontBase + Config.glyphSize * d.toNat)

end Sys2Proof.Machine
end

