-- ==== Sys2Proof/Machine/Flags.lean ====
section
/-! DEFINITION. The flag VF (spec/10_state.md R22): what each of the six flag writers computes, and the order of the
result's write and the flag's (spec/42_arith_logic.md R110). -/

namespace Sys2Proof.Machine

/-- VF, by number (R21). -/
abbrev vF : Reg := 0xF#4

/-- A flag as the whole register holds it: 0x00 or 0x01 (R22). -/
def flagByte (f : Bool) : Byte := if f then 1 else 0

/-- The carry out of an addition (R117). -/
def carry (a b : Byte) : Bool := decide (255 < a.toNat + b.toNat)

/-- No borrow in `a - b` (R118; decision D4). -/
def noBorrow (a b : Byte) : Bool := decide (b.toNat ≤ a.toNat)

/-- A right shift by one of this hardware's variant: the result, and the bit shifted out (R119). -/
def shiftRight (a : Byte) : Byte × Bool :=
  match Config.shiftVariant with
  | .inPlace => (a >>> 1, a.getLsbD 0)

/-- A left shift by one of this hardware's variant: the result, and the bit shifted out (R121). -/
def shiftLeft (a : Byte) : Byte × Bool :=
  match Config.shiftVariant with
  | .inPlace => (a <<< 1, a.getLsbD 7)

/-- Write a result to `V[x]` and a flag to VF in this hardware's order: the flag last, so that it wins where `x` is 15.
Both were computed from operands read before (R110). -/
def State.setRegAndFlag (s : State) (x : Reg) (result : Byte) (flag : Bool) : State :=
  match Config.vfWriteOrder with
  | .flagLast => (s.setReg x result).setReg vF (flagByte flag)

end Sys2Proof.Machine
end

