-- ==== Sys2Proof/Machine/ArithLogic.lean ====
section
/-! DEFINITION. Arithmetic and logic (spec/42_arith_logic.md R110 to R122). Every meaning begins with the advance of
R92; all arithmetic wraps modulo 256 (R8); operands are read before anything is written (R110). -/

namespace Sys2Proof.Machine

/-- LD Vx, nn (R111). -/
def execLdImm (x : Reg) (nn : Byte) (s : State) : Result := .next (s.advance.setReg x nn)

/-- ADD Vx, nn: no carry flag (R112). -/
def execAddImm (x : Reg) (nn : Byte) (s : State) : Result := .next (s.advance.setReg x (s.reg x + nn))

/-- LD Vx, Vy (R113). -/
def execLdReg (x y : Reg) (s : State) : Result := .next (s.advance.setReg x (s.reg y))

/-- OR Vx, Vy: VF unchanged (R114). -/
def execOr (x y : Reg) (s : State) : Result := .next (s.advance.setReg x (s.reg x ||| s.reg y))

/-- AND Vx, Vy: VF unchanged (R115). -/
def execAnd (x y : Reg) (s : State) : Result := .next (s.advance.setReg x (s.reg x &&& s.reg y))

/-- XOR Vx, Vy: VF unchanged (R116). -/
def execXor (x y : Reg) (s : State) : Result := .next (s.advance.setReg x (s.reg x ^^^ s.reg y))

/-- ADD Vx, Vy: VF is the carry (R117). -/
def execAddReg (x y : Reg) (s : State) : Result :=
  .next (s.advance.setRegAndFlag x (s.reg x + s.reg y) (carry (s.reg x) (s.reg y)))

/-- SUB Vx, Vy: Vx - Vy, VF is 1 if no borrow (R118). -/
def execSub (x y : Reg) (s : State) : Result :=
  .next (s.advance.setRegAndFlag x (s.reg x - s.reg y) (noBorrow (s.reg x) (s.reg y)))

/-- SHR Vx: the field `y` is ignored (R119). -/
def execShr (x _y : Reg) (s : State) : Result :=
  .next (s.advance.setRegAndFlag x (shiftRight (s.reg x)).1 (shiftRight (s.reg x)).2)

/-- SUBN Vx, Vy: Vy - Vx into Vx, VF is 1 if no borrow (R120). -/
def execSubn (x y : Reg) (s : State) : Result :=
  .next (s.advance.setRegAndFlag x (s.reg y - s.reg x) (noBorrow (s.reg y) (s.reg x)))

/-- SHL Vx: the field `y` is ignored (R121). -/
def execShl (x _y : Reg) (s : State) : Result :=
  .next (s.advance.setRegAndFlag x (shiftLeft (s.reg x)).1 (shiftLeft (s.reg x)).2)

/-- RND Vx, nn: the one instruction that uses the random input (R122; log 1). -/
def execRnd (x : Reg) (nn : Byte) (s : State) : Result :=
  .next (s.advance.useRnd.setReg x (s.rndByte &&& nn))

end Sys2Proof.Machine
end

