-- ==== Sys2Proof/Machine/BlockTransfer.lean ====
section
/-! DEFINITION. The block transfers (spec/44_block_transfer.md R130, R131). Registers are counted from V0 upward and
addresses from `I` upward, each reduced to 12 bits on its own; `I` is unchanged (decision D6). -/

namespace Sys2Proof.Machine

/-- `MemWrite(I + k, 1, V[k])` for k from 0 to `n` - 1, ascending (R130). -/
def State.storeUpTo (s : State) : Nat → State
  | 0 => s
  | n + 1 => (s.storeUpTo n).writeByte (s.indexed n) (s.reg (regOfNat n))

/-- `V[k] <- MemRead(I + k, 1)` for k from 0 to `n` - 1, ascending (R131). -/
def State.loadUpTo (s : State) : Nat → State
  | 0 => s
  | n + 1 => (s.loadUpTo n).setReg (regOfNat n) (s.readByte (s.indexed n))

/-- LD [I], Vx: registers 0 to x inclusive (R130). -/
def execStoreRegs (x : Reg) (s : State) : Result := .next (s.advance.storeUpTo (x.toNat + 1))

/-- LD Vx, [I]: registers 0 to x inclusive (R131). -/
def execLoadRegs (x : Reg) (s : State) : Result := .next (s.advance.loadUpTo (x.toNat + 1))

end Sys2Proof.Machine
end

