-- ==== Sys2Proof/Machine/ControlFlow.lean ====
section
/-! DEFINITION. Control flow (spec/41_control_flow.md R100 to R107). Every meaning gets the state in which the cycle
began, with `pc = pc0`, and begins with the advance of R92, so that its pseudocode runs with `pc = npc` (log 9). -/

namespace Sys2Proof.Machine

/-- JP nnn (R100). -/
def execJp (nnn : Addr) (s : State) : Result := .next (s.advance.jump (zextAddr nnn))

/-- CALL nnn (R101, R172): on a full stack nothing is pushed and `pc` stays `pc0`; the word latched is this
instruction's own (log 8). -/
def execCall (nnn : Addr) (s : State) : Result :=
  let t := s.advance
  if t.sp = t.params.stackDepth then .next (s.raise .stackOverflow s.pc (Instr.call nnn).encode)
  else .next ((t.push t.pc).jump (zextAddr nnn))

/-- RET (R102, R173): on an empty stack `pc` stays `pc0`. -/
def execRet (s : State) : Result :=
  match s.advance.pop with
  | some (w, t) => .next (t.jump w)
  | none => .next (s.raise .stackUnderflow s.pc Instr.ret.encode)

/-- SE Vx, nn (R103). -/
def execSeImm (x : Reg) (nn : Byte) (s : State) : Result :=
  .next (s.advance.skipIf (decide (s.reg x = nn)))

/-- SNE Vx, nn (R104). -/
def execSneImm (x : Reg) (nn : Byte) (s : State) : Result :=
  .next (s.advance.skipIf (decide (s.reg x ≠ nn)))

/-- SE Vx, Vy (R105). -/
def execSeReg (x y : Reg) (s : State) : Result :=
  .next (s.advance.skipIf (decide (s.reg x = s.reg y)))

/-- SNE Vx, Vy (R106). -/
def execSneReg (x y : Reg) (s : State) : Result :=
  .next (s.advance.skipIf (decide (s.reg x ≠ s.reg y)))

/-- JP V0, nnn: the sum wraps at 16 bits and is not masked (R107). -/
def execJpV0 (nnn : Addr) (s : State) : Result :=
  .next (s.advance.jump (zextAddr nnn + zextByte (s.reg 0)))

end Sys2Proof.Machine
end

