-- ==== Sys2Proof/Machine/Display.lean ====
section
/-! DEFINITION. The display instructions (spec/45_display.md R134 to R136). -/

namespace Sys2Proof.Machine

/-- The frame buffer while a sprite is drawn, and whether a pixel has been erased so far (`hit`, R136). -/
abbrev Canvas := FrameBuffer × Bool

/-- A sprite bit of 1 at column `x`, row `y`: note a collision, then toggle the pixel (R136). -/
def Canvas.plot (k : Canvas) (x : Fin Config.fbWidth) (y : Fin Config.fbHeight) : Canvas :=
  (k.1.toggle x y, k.2 || k.1.pixel x y)

/-- The column of sprite bit `c` of a sprite at column `cx`: everything wraps modulo 64 (R136). -/
def spriteColumn (cx : Byte) (c : Nat) : Fin Config.fbWidth := Fin.ofNat Config.fbWidth (cx.toNat + c)

/-- The row of sprite row `r` of a sprite at row `cy`: everything wraps modulo 32 (R136). -/
def spriteRow (cy : Byte) (r : Nat) : Fin Config.fbHeight := Fin.ofNat Config.fbHeight (cy.toNat + r)

/-- Sprite bits 0 to `n` - 1 of one row; bit c is bit 7 - c of the row's byte, so that bit 7 is leftmost (R134). -/
def Canvas.drawBits (k : Canvas) (b : Byte) (cx : Byte) (y : Fin Config.fbHeight) : Nat → Canvas
  | 0 => k
  | n + 1 =>
    let k' := k.drawBits b cx y n
    if b.getLsbD (7 - n) then k'.plot (spriteColumn cx n) y else k'

/-- Sprite rows 0 to `n` - 1; row r is the byte at `I + r` (R134, R136). -/
def State.drawRows (s : State) (k : Canvas) (cx cy : Byte) : Nat → Canvas
  | 0 => k
  | n + 1 => (s.drawRows k cx cy n).drawBits (s.readByte (s.indexed n)) cx (spriteRow cy n) 8

/-- CLS (R135). -/
def execCls (s : State) : Result := .next { s.advance with fb := FrameBuffer.clear }

/-- DRW Vx, Vy, n: the coordinates are read first and VF is written last, also to 0 (R136, R110). -/
def execDrw (x y : Reg) (n : Nibble) (s : State) : Result :=
  let k := s.drawRows (s.fb, false) (s.reg x) (s.reg y) n.toNat
  .next ({ s.advance with fb := k.1 }.setReg vF (flagByte k.2))

end Sys2Proof.Machine
end

