-- ==== Sys2Proof/Machine/Input.lean ====
section
/-! DEFINITION. The input instructions (spec/46_input.md R140 to R143). -/

namespace Sys2Proof.Machine

/-- SKP Vx: the key whose code is the low nibble of Vx (R140). -/
def execSkp (x : Reg) (s : State) : Result := .next (s.advance.skipIf (s.key (lowNibble (s.reg x))))

/-- SKNP Vx (R141). -/
def execSknp (x : Reg) (s : State) : Result := .next (s.advance.skipIf (!s.key (lowNibble (s.reg x))))

/-- LD Vx, K, the cycle that executes it: the advance is taken back, `x` is latched and the core waits (R142). -/
def execLdVxK (x : Reg) (s : State) : Result :=
  .next { s.advance with pc := s.pc, waitReg := x, runState := .awaitingKey }

/-- LD Vx, K, its completion by the new press of key `k` (R143). -/
def State.completeWait (s : State) (k : Nibble) : State :=
  { (s.setReg s.waitReg (zextNibble k)).advance with runState := .running }

end Sys2Proof.Machine
end

