-- ==== Sys2Proof/Machine/MemoryIndex.lean ====
section
/-! DEFINITION. The index register and the decimal store (spec/43_memory_index.md R125 to R128). Every meaning begins
with the advance of R92; none writes VF, none can fail, and `I` is not changed by an access. -/

namespace Sys2Proof.Machine

/-- LD I, nnn (R125). -/
def execLdI (nnn : Addr) (s : State) : Result := .next (s.advance.setI (zextAddr nnn))

/-- ADD I, Vx: wraps at 16 bits, no flag (R126). -/
def execAddI (x : Reg) (s : State) : Result := .next (s.advance.setI (s.i + zextByte (s.reg x)))

/-- LD F, Vx: the low nibble of Vx is the digit (R127). -/
def execLdF (x : Reg) (s : State) : Result := .next (s.advance.setI (glyphAddr (lowNibble (s.reg x))))

/-- LD B, Vx: hundreds, tens and units at `I`, `I + 1`, `I + 2`, each address reduced on its own (R128). -/
def execLdB (x : Reg) (s : State) : Result :=
  .next (((s.advance.writeByte (s.indexed 0) (bcdHundreds (s.reg x))).writeByte
    (s.indexed 1) (bcdTens (s.reg x))).writeByte (s.indexed 2) (bcdUnits (s.reg x)))

end Sys2Proof.Machine
end

