-- ==== Sys2Proof/Machine/Timers.lean ====
section
/-! DEFINITION. The timer instructions and the step of a timer (spec/47_timers.md R146 to R149). -/

namespace Sys2Proof.Machine

/-- LD Vx, DT (R146). -/
def execLdVxDt (x : Reg) (s : State) : Result := .next (s.advance.setReg x s.dt)

/-- LD DT, Vx (R147). -/
def execLdDtVx (x : Reg) (s : State) : Result := .next (s.advance.setDt (s.reg x))

/-- LD ST, Vx (R148). -/
def execLdStVx (x : Reg) (s : State) : Result := .next (s.advance.setSt (s.reg x))

/-- A timer one tick later: down by one, held at zero (R149). -/
def timerStep (w : Byte) : Byte := if w = 0 then 0 else w - 1

end Sys2Proof.Machine
end

