-- ==== Sys2Proof/Machine/Events.lean ====
section
/-! DEFINITION. The five events by which the host drives the core (spec/50_interfaces.md R151 to R158) and the three
views it reads (R159 to R161). Each event is one atomic step of the whole state (R93, R152). -/

namespace Sys2Proof.Machine

/-- Cycle: fetch, decode, execute while Running (R90); no effect otherwise (R91). An unknown word raises before the
advance, so that `pc` stays `pc0` (R171). -/
def State.cycle (s : State) : Result :=
  match s.runState with
  | .running =>
    match decode s.fetchWord with
    | some i => exec i s
    | none => .next (s.raise .unknownOpcode s.pc s.fetchWord)
  | .awaitingKey => .next s
  | .halted => .next s

/-- Tick: both timers step on their own, in every run state (R149, R157). -/
def State.tick (s : State) : State := { s with dt := timerStep s.dt, st := timerStep s.st }

/-- SetKey: the key's state is written in every run state; a key that goes from released to pressed completes a pending
key wait in the same step (R143, R158). -/
def State.setKey (s : State) (k : Nibble) (pressed : Bool) : State :=
  let t := s.writeKey k pressed
  if s.runState = .awaitingKey ∧ pressed = true ∧ s.key k = false then t.completeWait k else t

/-- Load: while Running a program that fits is copied to 0x200 upward; one that does not fit raises ProgramTooLarge and
writes nothing; in another run state there is no effect (R155, R174). -/
def State.load (s : State) (bytes : List Byte) : State :=
  match s.runState with
  | .running =>
    if Config.memSize < Config.programBase + bytes.length then s.raise .programTooLarge 0 0
    else s.writeBytes Config.programBase bytes
  | .awaitingKey => s
  | .halted => s

/-- Carry out one event (R151). -/
def State.deliver (s : State) : Event → Result
  | .reset => .next s.resetEvent
  | .load bytes => .next (s.load bytes)
  | .cycle => s.cycle
  | .tick => .next s.tick
  | .setKey k pressed => .next (s.setKey k pressed)

/-- The host's next event: the first it has laid out, else the first of those it repeats, else a free one (R152;
log 2). -/
def State.nextEvent (s : State) : Event :=
  match s.host.schedule, s.host.loop with
  | e :: _, _ => e
  | [], e :: _ => e
  | [], [] => Config.hostEvent s.host.turns

/-- The next event has been raised: what the host does after it (log 2). -/
def State.takeEvent (s : State) : State :=
  match s.host.schedule, s.host.loop with
  | _ :: es, _ => { s with host := { s.host with schedule := es } }
  | [], _ :: es => { s with host := { s.host with schedule := es } }
  | [], [] => { s with host := { s.host with turns := s.host.turns + 1 } }

/-- The same machine with other events laid out (log 2). -/
def State.withSchedule (s : State) (es : List Event) : State := { s with host := { s.host with schedule := es } }

/-! ## Views -/

/-- The display view as a flat vector: pixel (column x, row y) is bit `y * 64 + x` (R159). -/
def State.displayView (s : State) : BitVec 2048 :=
  BitVec.ofNat 2048 (s.fb.toList.foldr (fun row acc => row.toNat + 2 ^ Config.fbWidth * acc) 0)

/-- The audio view: the sound timer, and `sound_on` (R160). -/
def State.audioView (s : State) : Byte × Bool := (s.st, decide (0 < s.st.toNat))

/-- The port code of `run_state` (R164). -/
def RunState.code : RunState → BitVec 2
  | .running => 0
  | .awaitingKey => 1
  | .halted => 2

/-- The code of `err_kind` (R170). -/
def ErrKind.code : ErrKind → BitVec 3
  | .none => 0
  | .unknownOpcode => 1
  | .stackOverflow => 2
  | .stackUnderflow => 3
  | .programTooLarge => 4

/-- What the status view shows (R161). -/
structure StatusView where
  runState : BitVec 2
  errKind : BitVec 3
  errAddr : Word
  errBits : Word
deriving DecidableEq, Repr

/-- The status view: `run_state` and the error latch, by their codes (R161, R164, R170). -/
def State.statusView (s : State) : StatusView :=
  { runState := s.runState.code, errKind := s.errKind.code, errAddr := s.errAddr, errBits := s.errBits }

end Sys2Proof.Machine
end

