-- ==== Sys2Proof/Machine/Step.lean ====
section
/-! DEFINITION. One step of the machine: the host's next event, carried out whole (spec/50_interfaces.md R152). -/

namespace Sys2Proof.Machine

/-- The host raises its next event and the core carries it out (log 2). -/
def step (s : State) : Host.Outcome State Fault Refusal := s.takeEvent.deliver s.nextEvent

/-- `s` with an instruction stored where the next step fetches: its two bytes at `pc` and `pc + 1`, the core Running and
a host that raises Cycles alone from here on. It stands for the load of a program (log 11). -/
def State.withFetchWord (s : State) (nbits w : Nat) : State :=
  let t := (s.writeByte s.pc.toNat (highByte (tableWord nbits w))).writeByte (s.pc.toNat + 1) (lowByte (tableWord nbits w))
  { t with runState := .running, host := { t.host with schedule := [], loop := [.cycle] } }

end Sys2Proof.Machine
end

