-- ==== Sys2Proof/Safety.lean ====
section
/-! DEFINITION. What claims are stated in: the invariant of the machine, what a safe run is, where a program ends, and
which pieces of state an instruction names as written (spec/10_state.md R35, spec/20_memory.md R65). -/

namespace Sys2Proof

/-- The six instructions that write VF as a flag (R22). -/
def Instr.writesFlag : Instr → Bool
  | .addReg _ _ | .sub _ _ | .subn _ _ | .shr _ _ | .shl _ _ | .drw _ _ _ => true
  | .cls | .ret | .jp _ | .call _ | .seImm _ _ | .sneImm _ _ | .seReg _ _ | .ldImm _ _ | .addImm _ _ => false
  | .ldReg _ _ | .orReg _ _ | .andReg _ _ | .xorReg _ _ | .sneReg _ _ | .ldI _ | .jpV0 _ | .rnd _ _ => false
  | .skp _ | .sknp _ | .ldVxDt _ | .ldVxK _ | .ldDtVx _ | .ldStVx _ | .addI _ | .ldF _ | .ldB _ => false
  | .storeRegs _ | .loadRegs _ => false

/-- The instruction names register `r` as a destination, the flag not counted (R35). LD Vx,K names none in its own
cycle: its register is written by the key press (R142). -/
def Instr.names (i : Instr) (r : Reg) : Bool :=
  match i with
  | .ldImm x _ | .addImm x _ | .ldReg x _ | .orReg x _ | .andReg x _ | .xorReg x _ | .rnd x _ | .ldVxDt x => decide (r = x)
  | .addReg x _ | .sub x _ | .shr x _ | .subn x _ | .shl x _ => decide (r = x)
  | .loadRegs x => decide (r.toNat ≤ x.toNat)
  | .cls | .ret | .jp _ | .call _ | .seImm _ _ | .sneImm _ _ | .seReg _ _ | .sneReg _ _ | .ldI _ | .jpV0 _ => false
  | .drw _ _ _ | .skp _ | .sknp _ | .ldVxK _ | .ldDtVx _ | .ldStVx _ | .addI _ | .ldF _ | .ldB _ | .storeRegs _ => false

end Sys2Proof

namespace Sys2Proof.Machine

/-- The invariant every step keeps: memory is in its canonical form, the stack holds at most STACK_DEPTH entries (R25),
`err_kind` is None exactly when the core is not Halted, with the latch clear then (R32, R170), and the parameters are
legal (R5). -/
structure State.Inv (s : State) : Prop where
  memory : Memory.wf s.params s.mem
  stack : s.sp ≤ s.params.stackDepth
  latch : s.errKind = .none ↔ s.runState ≠ .halted
  clear : s.errKind = .none → s.errAddr = 0 ∧ s.errBits = 0
  params : s.params.wf = true

/-- A safe state: no fatal error has occurred (R181: Halted is a fault state, never final). -/
def State.safe (s : State) : Prop := s.runState ≠ .halted

/-- The conventional end of a program: Running at a jump to itself (R199, decision D37). -/
def State.atEnd (s : State) : Prop :=
  s.runState = .running ∧ ∃ nnn : Addr, s.fetchWord = (Instr.jp nnn).encode ∧ s.pc = zextAddr nnn

/-- Carry out events one after another (R152). -/
def deliverAll (s : State) : List Event → Result
  | [] => .next s
  | e :: es =>
    match s.deliver e with
    | .next t => deliverAll t es
    | r => r

/-- The addresses an instruction stores to, reduced to 12 bits (R65). -/
def storedAddresses (i : Instr) (s : State) : List Nat :=
  match i with
  | .ldB _ => [s.indexed 0 % Config.memSize, s.indexed 1 % Config.memSize, s.indexed 2 % Config.memSize]
  | .storeRegs x => (List.range (x.toNat + 1)).map (fun k => s.indexed k % Config.memSize)
  | .cls | .ret | .jp _ | .call _ | .seImm _ _ | .sneImm _ _ | .seReg _ _ | .ldImm _ _ | .addImm _ _ | .ldReg _ _ => []
  | .orReg _ _ | .andReg _ _ | .xorReg _ _ | .addReg _ _ | .sub _ _ | .shr _ _ | .subn _ _ | .shl _ _ => []
  | .sneReg _ _ | .ldI _ | .jpV0 _ | .rnd _ _ | .drw _ _ _ | .skp _ | .sknp _ | .ldVxDt _ | .ldVxK _ => []
  | .ldDtVx _ | .ldStVx _ | .addI _ | .ldF _ | .loadRegs _ => []

/-- A program's obligation at one instruction: it stores nothing below 0x200 (R58, R194). -/
def keepsReserved (i : Instr) (s : State) : Prop := ∀ a ∈ storedAddresses i s, Config.programBase ≤ a

/-- A sprite of `n` rows at (`cx`, `cy`) has a 1 bit on the pixel in column `X`, row `Y` (R134, R136). -/
def spriteCovers (s : State) (cx cy : Byte) (n : Nibble) (X : Fin Config.fbWidth) (Y : Fin Config.fbHeight) : Prop :=
  ∃ r < n.toNat, ∃ c < 8, (s.readByte (s.i.toNat + r)).getLsbD (7 - c) = true ∧
    X.val = (cx.toNat + c) % 64 ∧ Y.val = (cy.toNat + r) % 32

/-- `t` is `s` after an instruction whose whole effect is on registers: `pc` has advanced by 2, register r holds `f r`,
and nothing else has changed. -/
def AdvancedWithRegs (s t : State) (f : Reg → Byte) : Prop :=
  t = { s with pc := s.pc + 2, v := t.v } ∧ ∀ r, t.reg r = f r

/-- A condition as the flag register holds it: 0x01 or 0x00 (R22). -/
def oneIf (c : Prop) [Decidable c] : Byte := if c then 1 else 0

end Sys2Proof.Machine
end

