-- ==== Sys2Proof/Certificates/Slice0/Obligations.lean ====
section
/-! DEFINITION. The statements for the provers. Each docstring names the rule of spec/ it formalises, or says whose
choice it rests on: "decision D<n>" is a row of spec/92_eei_decisions.md, "log n" an entry of notes/assumptions/.
The words of instructions are the pattern table R75, which the spec marks as its general knowledge (decision D26; log 13).
Where a statement writes `t = { s with … }`, everything not listed is unchanged: that is its frame. -/

open Sys2Proof Sys2Proof.Machine

/-! ## Encoding and decoding -/

/-- Decoding an encoded well-formed instruction gives it back, as a word and as bytes followed by others: no bit of an
operand is dropped. Rests on the pattern table R75, which the spec marks as general knowledge (decision D26; log 13). -/
def Obligations.DecodeOfEncodeGivesInstructionBack : Prop :=
  ∀ (i : Instr) (rest : List Byte), i.wf = true →
    decode i.encode = some i ∧ decodeBytes (i.encodeBytes ++ rest) = .ok (i, rest)

/-- The other direction: a word that decodes is the word of the instruction it decodes to. In particular SHR and SHL keep
their ignored field (log 17). -/
def Obligations.EncodeOfDecodeGivesWordBack : Prop :=
  ∀ (w : Word) (i : Instr), decode w = some i → i.encode = w ∧ i.wf = true

/-- R74: a word that no row of the opcode map selects is an unknown opcode; one that a row selects is that row's
instruction, with all its fields (its encoding is the word); and no word selects two rows. -/
def Obligations.WordDecodesByTheRowItSelects : Prop :=
  ∀ w : Word,
    ((∀ r ∈ opcodeRows, w &&& r.mask ≠ r.bits) → decode w = none) ∧
    (∀ r ∈ opcodeRows, w &&& r.mask = r.bits → ∃ i, decode w = some i ∧ i.row = r ∧ i.encode = w) ∧
    (∀ r ∈ opcodeRows, ∀ q ∈ opcodeRows, w &&& r.mask = r.bits → w &&& q.mask = q.bits → r = q)

/-- The table of unknown words, family by family (R76; the exactness of sub-opcodes is decision D35, 0nnn is D10). -/
def Obligations.UnknownOpcodesAreTheListedWords : Prop :=
  ∀ (x y n : Nibble) (nn : Byte) (nnn : Addr),
    (decode (0x0#4 ++ nnn) = none ↔ nnn ≠ 0x0E0#12 ∧ nnn ≠ 0x0EE#12) ∧
    (decode (0x5#4 ++ x ++ y ++ n) = none ↔ n ≠ 0x0#4) ∧
    (decode (0x8#4 ++ x ++ y ++ n) = none ↔ n.toNat ∈ [0x8, 0x9, 0xA, 0xB, 0xC, 0xD, 0xF]) ∧
    (decode (0x9#4 ++ x ++ y ++ n) = none ↔ n ≠ 0x0#4) ∧
    (decode (0xE#4 ++ x ++ nn) = none ↔ nn.toNat ∉ [0x9E, 0xA1]) ∧
    (decode (0xF#4 ++ x ++ nn) = none ↔ nn.toNat ∉ [0x07, 0x0A, 0x15, 0x18, 0x1E, 0x29, 0x33, 0x55, 0x65]) ∧
    (∀ f : Nibble, f.toNat ∈ [0x1, 0x2, 0x3, 0x4, 0x6, 0x7, 0xA, 0xB, 0xC, 0xD] → decode (f ++ nnn) ≠ none)

/-- Words written out from the patterns of R75, one or more for each family, decode to the instructions they stand for
(spec/95_test_vectors.md T2, T3). -/
def Obligations.WrittenOutWordsDecode : Prop :=
  decode 0x00E0 = some .cls ∧ decode 0x00EE = some .ret ∧ decode 0x1234 = some (.jp 0x234) ∧
  decode 0x3A00 = some (.seImm 0xA 0x00) ∧ decode 0x8AB4 = some (.addReg 0xA 0xB) ∧
  decode 0x8ABE = some (.shl 0xA 0xB) ∧ decode 0xA2F0 = some (.ldI 0x2F0) ∧ decode 0xC30F = some (.rnd 0x3 0x0F) ∧
  decode 0xD123 = some (.drw 0x1 0x2 0x3) ∧ decode 0xE19E = some (.skp 0x1) ∧ decode 0xF133 = some (.ldB 0x1) ∧
  decode 0xFF65 = some (.loadRegs 0xF) ∧ decode 0xF115 = some (.ldDtVx 0x1) ∧
  decode 0x0000 = none ∧ decode 0x5121 = none ∧ decode 0x8AB8 = none ∧ decode 0xE19F = none ∧ decode 0xFFFF = none

/-! ## The cycle -/

/-- A step whose event is a Cycle, in Running, executes the instruction the two bytes at `pc` decode to. The meaning does
the advance of R92 itself (log 9). Taking the event off what the host has laid out changes the host's side alone
(log 2). -/
def Obligations.StepRunsDecodedInstruction : Prop :=
  ∀ (s : State) (i : Instr), s.nextEvent = .cycle → s.runState = .running → decode s.fetchWord = some i →
    step s = exec i s.takeEvent ∧ s.takeEvent = { s with host := s.takeEvent.host }

/-- The word fetched is the byte at `pc` in bits 15 to 8 and the byte at `pc + 1` in bits 7 to 0, each address reduced
modulo 4096 on its own, whatever `pc` is (R52, R54, R55; decisions D1, D14). -/
def Obligations.FetchIsBigEndianAndMasked : Prop :=
  ∀ s : State, s.fetchWord.toNat = (s.readByte (s.pc.toNat % 4096)).toNat * 256 +
    (s.readByte ((s.pc.toNat + 1) % 4096)).toNat

/-- A Cycle in Running that fetches an unknown word halts the core; the latch holds `pc0` and the word, and nothing else changes, `pc` included
(R90, R171; decisions D11 to D13). -/
def Obligations.UnknownWordHaltsAndChangesNothingElse : Prop :=
  ∀ s : State, s.runState = .running → decode s.fetchWord = none → s.deliver .cycle =
    .next { s with runState := .halted, errKind := .unknownOpcode, errAddr := s.pc, errBits := s.fetchWord }

/-- A Cycle while the core waits for a key or is Halted changes no state at all (R91, decision D33). -/
def Obligations.CycleDoesNothingUnlessRunning : Prop :=
  ∀ s : State, s.runState ≠ .running → s.deliver .cycle = .next s

/-- R94: every instruction completes. CALL alone can overflow the stack and RET alone can underflow it, each exactly
when the stack is full or empty; LD Vx,K alone leaves the core waiting; every other completes Running. -/
def Obligations.EveryInstructionCompletesAndOnlyCallAndRetFail : Prop :=
  ∀ (i : Instr) (s : State), s.runState = .running → ∃ t, exec i s = .next t ∧
    ((t.runState = .halted ∧ t.errKind = .stackOverflow ∧ (∃ nnn, i = .call nnn) ∧ s.sp = s.params.stackDepth) ∨
     (t.runState = .halted ∧ t.errKind = .stackUnderflow ∧ i = .ret ∧ s.sp = 0) ∨
     (t.runState = .awaitingKey ∧ t.errKind = s.errKind ∧ ∃ x, i = .ldVxK x) ∨
     (t.runState = .running ∧ t.errKind = s.errKind ∧ (∀ x, i ≠ .ldVxK x) ∧
       (∀ nnn, i = .call nnn → s.sp ≠ s.params.stackDepth) ∧ (i = .ret → s.sp ≠ 0)))

/-! ## Control flow -/

/-- R100. -/
def Obligations.JumpSetsPcToItsAddress : Prop :=
  ∀ (s : State) (nnn : Addr), (Instr.jp nnn).encode = 0x1#4 ++ nnn ∧
    ∃ a : Word, a.toNat = nnn.toNat ∧ exec (.jp nnn) s = .next { s with pc := a }

/-- R101: with room on the stack CALL pushes the address after itself and jumps; on a full stack nothing is pushed,
`pc` keeps `pc0` and the core halts with StackOverflow. -/
def Obligations.CallPushesReturnAddressAndJumps : Prop :=
  ∀ (s : State) (nnn : Addr), (Instr.call nnn).encode = 0x2#4 ++ nnn ∧
    (s.sp ≠ s.params.stackDepth → ∃ a : Word, a.toNat = nnn.toNat ∧
      exec (.call nnn) s = .next { s with pc := a, stack := s.stack ++ [s.pc + 2] }) ∧
    (s.sp = s.params.stackDepth → ∃ t, exec (.call nnn) s = .next t ∧ t.runState = .halted ∧
      t.errKind = .stackOverflow ∧ t.stack = s.stack ∧ t.pc = s.pc)

/-- R102: RET pops the newest entry into `pc`, all 16 bits; on an empty stack `pc` keeps `pc0` and the core halts with
StackUnderflow. -/
def Obligations.ReturnPopsNewestAddress : Prop :=
  ∀ s : State, Instr.ret.encode = 0x00EE#16 ∧
    (∀ (ws : List Word) (w : Word), s.stack = ws ++ [w] → exec .ret s = .next { s with pc := w, stack := ws }) ∧
    (s.stack = [] → ∃ t, exec .ret s = .next t ∧ t.runState = .halted ∧ t.errKind = .stackUnderflow ∧ t.pc = s.pc)

/-- A call followed at once by a return leaves everything as it was but `pc`, which is after the call
(R92's first consequence, for any address). -/
def Obligations.CallThenReturnRestoresAllButPc : Prop :=
  ∀ (s : State) (nnn : Addr), s.sp ≠ s.params.stackDepth →
    ∃ t, exec (.call nnn) s = .next t ∧ exec .ret t = .next { s with pc := s.pc + 2 }

/-- The two stack errors discard every write of their cycle, the advance of `pc` included, and latch `pc0` and the
instruction's own word (R172, R173, R179; decisions D12, D13; log 8). -/
def Obligations.StackErrorsLatchAddressAndWord : Prop :=
  ∀ (s : State) (nnn : Addr),
    (s.sp = s.params.stackDepth → exec (.call nnn) s =
      .next { s with runState := .halted, errKind := .stackOverflow, errAddr := s.pc, errBits := 0x2#4 ++ nnn }) ∧
    (s.sp = 0 → exec .ret s =
      .next { s with runState := .halted, errKind := .stackUnderflow, errAddr := s.pc, errBits := 0x00EE#16 })

/-- R103 to R106: the four skips end at `pc0 + 4` when their condition holds, at `pc0 + 2` when not, and change
nothing else; with two registers the low nibble of the word must be 0. -/
def Obligations.SkipsMovePcByFourOrTwo : Prop :=
  ∀ (s : State) (x y : Reg) (nn : Byte),
    ((Instr.seImm x nn).encode = 0x3#4 ++ x ++ nn ∧
      exec (.seImm x nn) s = .next { s with pc := if s.reg x = nn then s.pc + 4 else s.pc + 2 }) ∧
    ((Instr.sneImm x nn).encode = 0x4#4 ++ x ++ nn ∧
      exec (.sneImm x nn) s = .next { s with pc := if s.reg x ≠ nn then s.pc + 4 else s.pc + 2 }) ∧
    ((Instr.seReg x y).encode = 0x5#4 ++ x ++ y ++ 0x0#4 ∧
      (∀ n : Nibble, n ≠ 0x0#4 → decode (0x5#4 ++ x ++ y ++ n) = none) ∧
      exec (.seReg x y) s = .next { s with pc := if s.reg x = s.reg y then s.pc + 4 else s.pc + 2 }) ∧
    ((Instr.sneReg x y).encode = 0x9#4 ++ x ++ y ++ 0x0#4 ∧
      (∀ n : Nibble, n ≠ 0x0#4 → decode (0x9#4 ++ x ++ y ++ n) = none) ∧
      exec (.sneReg x y) s = .next { s with pc := if s.reg x ≠ s.reg y then s.pc + 4 else s.pc + 2 })

/-- R107 (an instruction the spec includes from general knowledge, decision D27): the sum is not masked to 12 bits. -/
def Obligations.JumpV0AddsRegisterZero : Prop :=
  ∀ (s : State) (nnn : Addr), ∃ a : Word, a.toNat = nnn.toNat + (s.reg 0x0#4).toNat ∧
    exec (.jpV0 nnn) s = .next { s with pc := a }

/-! ## Arithmetic and logic -/

/-- R111 and R112: the immediate is loaded, or added modulo 256; VF changes only where it is the destination. -/
def Obligations.ImmediateLoadAndAddWriteOneRegister : Prop :=
  ∀ (s : State) (x : Reg) (nn : Byte),
    ((Instr.ldImm x nn).encode = 0x6#4 ++ x ++ nn ∧ ∃ t, exec (.ldImm x nn) s = .next t ∧
      AdvancedWithRegs s t fun r => if r = x then nn else s.reg r) ∧
    ((Instr.addImm x nn).encode = 0x7#4 ++ x ++ nn ∧ ∃ t, exec (.addImm x nn) s = .next t ∧
      AdvancedWithRegs s t fun r => if r = x then BitVec.ofNat 8 (((s.reg x).toNat + nn.toNat) % 256) else s.reg r)

/-- R113 (decision D27) and R114 to R116 (VF unchanged: decision D21): copy, OR, AND and XOR write Vx alone. -/
def Obligations.CopyAndBitwiseWriteOneRegister : Prop :=
  ∀ (s : State) (x y : Reg),
    (∃ t, exec (.ldReg x y) s = .next t ∧ AdvancedWithRegs s t fun r => if r = x then s.reg y else s.reg r) ∧
    (∃ t, exec (.orReg x y) s = .next t ∧
      AdvancedWithRegs s t fun r => if r = x then s.reg x ||| s.reg y else s.reg r) ∧
    (∃ t, exec (.andReg x y) s = .next t ∧
      AdvancedWithRegs s t fun r => if r = x then s.reg x &&& s.reg y else s.reg r) ∧
    (∃ t, exec (.xorReg x y) s = .next t ∧
      AdvancedWithRegs s t fun r => if r = x then s.reg x ^^^ s.reg y else s.reg r)

/-- R117: Vx is the sum modulo 256 and VF is 1 exactly when the sum passes 255; where x is 15, VF ends as the carry
and the sum is lost (the order of the two writes, R110, is decision D3). -/
def Obligations.AddRegistersSetsCarry : Prop :=
  ∀ (s : State) (x y : Reg), (Instr.addReg x y).encode = 0x8#4 ++ x ++ y ++ 0x4#4 ∧
    ∃ t, exec (.addReg x y) s = .next t ∧
      AdvancedWithRegs s t fun r =>
        if r = 0xF#4 then oneIf (255 < (s.reg x).toNat + (s.reg y).toNat)
        else if r = x then BitVec.ofNat 8 (((s.reg x).toNat + (s.reg y).toNat) % 256) else s.reg r

/-- R118, R120: the difference modulo 256 and VF = 1 if no borrow. That equal operands give VF = 1 is decision D4, and
that the flag wins where x is 15 is decision D3. -/
def Obligations.SubtractionsSetNoBorrow : Prop :=
  ∀ (s : State) (x y : Reg),
    (∃ t, exec (.sub x y) s = .next t ∧
      AdvancedWithRegs s t fun r =>
        if r = 0xF#4 then oneIf ((s.reg y).toNat ≤ (s.reg x).toNat)
        else if r = x then BitVec.ofNat 8 (((s.reg x).toNat + 256 - (s.reg y).toNat) % 256) else s.reg r) ∧
    (∃ t, exec (.subn x y) s = .next t ∧
      AdvancedWithRegs s t fun r =>
        if r = 0xF#4 then oneIf ((s.reg x).toNat ≤ (s.reg y).toNat)
        else if r = x then BitVec.ofNat 8 (((s.reg y).toNat + 256 - (s.reg x).toNat) % 256) else s.reg r)

/-- R119, R121: half or twice the register, VF = the bit shifted out; the field y changes nothing. The amount of 1 is
decision D5, the flag winning in VF decision D3. -/
def Obligations.ShiftsSetBitShiftedOut : Prop :=
  ∀ (s : State) (x y : Reg),
    (∃ t, exec (.shr x y) s = .next t ∧
      AdvancedWithRegs s t fun r =>
        if r = 0xF#4 then oneIf ((s.reg x).toNat % 2 = 1)
        else if r = x then BitVec.ofNat 8 ((s.reg x).toNat / 2) else s.reg r) ∧
    (∃ t, exec (.shl x y) s = .next t ∧
      AdvancedWithRegs s t fun r =>
        if r = 0xF#4 then oneIf (128 ≤ (s.reg x).toNat)
        else if r = x then BitVec.ofNat 8 ((2 * (s.reg x).toNat) % 256) else s.reg r)

/-- RND writes the masked random byte and uses that byte up (R122, decision D18). The byte is the next the host has
laid out, or a FREE value of the model (log 1); nothing here rests on what it is. -/
def Obligations.RandomMasksTheRandomInput : Prop :=
  ∀ (s : State) (x : Reg) (nn : Byte), ∃ t, exec (.rnd x nn) s = .next t ∧
    t = { s with pc := s.pc + 2, v := t.v, host := t.host } ∧
    (∀ r, r ≠ x → t.reg r = s.reg r) ∧ t.reg x &&& ~~~nn = 0 ∧
    (∀ (b : Byte) (bs : List Byte), s.host.rndIn = b :: bs →
      t.reg x = b &&& nn ∧ t.host = { s.host with rndIn := bs }) ∧
    (s.host.rndIn = [] →
      t.reg x = Config.rndInput s.host.draws &&& nn ∧ t.host = { s.host with draws := s.host.draws + 1 })

/-! ## Index register and memory -/

/-- R125. -/
def Obligations.LoadIndexZeroExtends : Prop :=
  ∀ (s : State) (nnn : Addr), (Instr.ldI nnn).encode = 0xA#4 ++ nnn ∧
    ∃ a : Word, a.toNat = nnn.toNat ∧ exec (.ldI nnn) s = .next { s with pc := s.pc + 2, i := a }

/-- R126, R127: I wraps at 16 bits (decision D15) and VF is unchanged (D21); a digit is the low nibble of Vx (D8) and
the font stands at 0x000 (D9). -/
def Obligations.IndexAddAndGlyphAddress : Prop :=
  ∀ (s : State) (x : Reg),
    (∃ a : Word, a.toNat = (s.i.toNat + (s.reg x).toNat) % 65536 ∧
      exec (.addI x) s = .next { s with pc := s.pc + 2, i := a }) ∧
    (∃ a : Word, a.toNat = 5 * ((s.reg x).toNat % 16) ∧
      exec (.ldF x) s = .next { s with pc := s.pc + 2, i := a })

/-- R128: the three decimal digits of Vx at `I`, `I + 1`, `I + 2`, each address reduced on its own (the address policy
is decision D1); no other byte and nothing else changes. -/
def Obligations.DecimalStoreWritesThreeDigits : Prop :=
  ∀ (s : State) (x : Reg), (Instr.ldB x).encode = 0xF#4 ++ x ++ 0x33#8 ∧
    ∃ t, exec (.ldB x) s = .next t ∧ t = { s with pc := s.pc + 2, mem := t.mem } ∧
      (t.readByte (s.indexed 0)).toNat = (s.reg x).toNat / 100 ∧
      (t.readByte (s.indexed 1)).toNat = (s.reg x).toNat / 10 % 10 ∧
      (t.readByte (s.indexed 2)).toNat = (s.reg x).toNat % 10 ∧
      ∀ a, (∀ k < 3, a % 4096 ≠ s.indexed k % 4096) → t.readByte a = s.readByte a

/-- R130: byte `I + k` holds Vk for every k up to x, no other byte changes, and I is unchanged (decision D6). -/
def Obligations.BlockStoreWritesRegistersInOrder : Prop :=
  ∀ (s : State) (x : Reg), ∃ t, exec (.storeRegs x) s = .next t ∧ t = { s with pc := s.pc + 2, mem := t.mem } ∧
    (∀ k : Reg, k.toNat ≤ x.toNat → t.readByte (s.indexed k.toNat) = s.reg k) ∧
    ∀ a, (∀ k ≤ x.toNat, a % 4096 ≠ s.indexed k % 4096) → t.readByte a = s.readByte a

/-- R131: Vk holds byte `I + k` for every k up to x, the registers above x are unchanged, memory and I are unchanged
(decision D6). -/
def Obligations.BlockLoadReadsRegistersInOrder : Prop :=
  ∀ (s : State) (x : Reg), ∃ t, exec (.loadRegs x) s = .next t ∧
    AdvancedWithRegs s t fun r => if r.toNat ≤ x.toNat then s.readByte (s.indexed r.toNat) else s.reg r

/-- A byte written is read back at every address that reduces to the same 12 bits, and every other byte is as before
(R51 to R53; the address policy is decision D1). -/
def Obligations.ReadAfterWriteAtMaskedAddress : Prop :=
  ∀ (s : State) (a b : Nat) (w : Byte), (s.writeByte a w).readByte b =
    if b % 4096 = a % 4096 then w else s.readByte b

/-- No instruction changes a byte but LD B,Vx and LD [I],Vx, and those change only the bytes they store to: the writers
of R65's list of accesses. -/
def Obligations.OnlyStoringInstructionsChangeMemory : Prop :=
  ∀ (i : Instr) (s t : State) (a : Nat), exec i s = .next t → a % 4096 ∉ storedAddresses i s →
    t.readByte a = s.readByte a

/-- While a program keeps its obligation to store nothing below 0x200, the font and the rest of the reserved region keep
their bytes; the hardware does not check it (R58, R194, decision D25). -/
def Obligations.ReservedRegionSurvivesObedientPrograms : Prop :=
  ∀ (i : Instr) (s t : State), keepsReserved i s → exec i s = .next t → ∀ a < 0x200, t.readByte a = s.readByte a

/-! ## Display -/

/-- R135. -/
def Obligations.ClearTurnsEveryPixelOff : Prop :=
  ∀ s : State, Instr.cls.encode = 0x00E0#16 ∧ ∃ t, exec .cls s = .next t ∧
    t = { s with pc := s.pc + 2, fb := t.fb } ∧ ∀ X Y, t.fb.pixel X Y = false

/-- DRW toggles exactly the pixels under the sprite's 1 bits, columns modulo 64 and rows modulo 32, and VF says whether
one of them was on (R134, R136; the sprite format is decision D19, n = 0 decision D20). -/
def Obligations.DrawTogglesCoveredPixelsAndReportsCollision : Prop :=
  ∀ (s : State) (x y : Reg) (n : Nibble), ∃ t, exec (.drw x y n) s = .next t ∧
    t = { s with pc := s.pc + 2, v := t.v, fb := t.fb } ∧
    (∀ X Y, t.fb.pixel X Y = true ↔ (s.fb.pixel X Y = true ↔ ¬ spriteCovers s (s.reg x) (s.reg y) n X Y)) ∧
    (∀ r, r ≠ 0xF#4 → t.reg r = s.reg r) ∧
    ((∃ X Y, spriteCovers s (s.reg x) (s.reg y) n X Y ∧ s.fb.pixel X Y = true) → t.reg 0xF#4 = 1) ∧
    ((∀ X Y, spriteCovers s (s.reg x) (s.reg y) n X Y → s.fb.pixel X Y = false) → t.reg 0xF#4 = 0)

/-- Drawing the same sprite twice at the same coordinates restores the frame buffer; the second draw reports a collision
exactly when the first turned a pixel on (R136; conflict C11; sprite format decision D19). Where VF is a coordinate
register, "the same coordinates" has to be said of the second draw's registers. -/
def Obligations.DrawingTwiceRestoresTheFrameBuffer : Prop :=
  ∀ (s t u : State) (x y x' y' : Reg) (n : Nibble),
    exec (.drw x y n) s = .next t → t.reg x' = s.reg x → t.reg y' = s.reg y → exec (.drw x' y' n) t = .next u →
    u.fb = s.fb ∧ u.mem = s.mem ∧
    (u.reg 0xF#4 = 1 ↔ ∃ X Y, spriteCovers s (s.reg x) (s.reg y) n X Y ∧ s.fb.pixel X Y = false)

/-- The flat display view: pixel (column X, row Y) is bit Y * 64 + X (R159, decision D29). -/
def Obligations.DisplayViewIsRowMajor : Prop :=
  ∀ (s : State) (X : Fin Config.fbWidth) (Y : Fin Config.fbHeight),
    s.displayView.getLsbD (Y.val * 64 + X.val) = s.fb.pixel X Y

/-! ## Input -/

/-- R140, R141: the key tested is the low nibble of Vx (decision D7). -/
def Obligations.KeySkipsTestLowNibbleKey : Prop :=
  ∀ (s : State) (x : Reg),
    exec (.skp x) s =
      .next { s with pc := if s.keys.getLsbD ((s.reg x).toNat % 16) then s.pc + 4 else s.pc + 2 } ∧
    exec (.sknp x) s =
      .next { s with pc := if s.keys.getLsbD ((s.reg x).toNat % 16) then s.pc + 2 else s.pc + 4 }

/-- LD Vx,K enters AwaitingKey with `pc` still at itself and x latched; no register is written (R142, decision D16). -/
def Obligations.KeyWaitSuspendsAtTheInstruction : Prop :=
  ∀ (s : State) (x : Reg), exec (.ldVxK x) s = .next { s with waitReg := x, runState := .awaitingKey }

/-- SetKey writes the key in every run state. A key that goes from released to pressed while the core waits completes
the wait: its code goes to the latched register, `pc` moves past the instruction and the core runs. Any other SetKey
changes the key alone, and one that repeats the key's state changes nothing (R143, R158; decisions D16, D34). -/
def Obligations.SetKeyWritesKeyAndCompletesWait : Prop :=
  ∀ (s : State) (k : Nibble) (pressed : Bool), ∃ t, s.deliver (.setKey k pressed) = .next t ∧
    (∀ j, t.key j = if j = k then pressed else s.key j) ∧
    (s.runState = .awaitingKey ∧ pressed = true ∧ s.key k = false →
      t = { s with keys := t.keys, v := t.v, pc := s.pc + 2, runState := .running } ∧
      ∀ r, t.reg r = if r = s.waitReg then k.setWidth 8 else s.reg r) ∧
    (¬ (s.runState = .awaitingKey ∧ pressed = true ∧ s.key k = false) → t = { s with keys := t.keys }) ∧
    (pressed = s.key k → t = s)

/-- A key wait and the new press of key k, with any number of ticks, and Cycles, between them: Vx is the key's code
and `pc` is past the instruction (R91, R142, R143; decisions D16, D17). -/
def Obligations.KeyWaitEndsWithTheKeysCode : Prop :=
  ∀ (s : State) (x : Reg) (k : Nibble) (ticks : Nat), s.runState = .running → s.key k = false →
    ∃ t u, exec (.ldVxK x) s = .next t ∧ (State.tick^[ticks] t).cycle = .next (State.tick^[ticks] t) ∧
      (State.tick^[ticks] t).deliver (.setKey k true) = .next u ∧ u.runState = .running ∧ u.pc = s.pc + 2 ∧
      ∀ r, u.reg r = if r = x then k.setWidth 8 else s.reg r

/-- What `wait_reg` holds outside AwaitingKey is not architectural: no event's result depends on it, but for `wait_reg`
itself, and the value in it when a wait begins does not come from it (R31, decision D16). -/
def Obligations.WaitRegisterIsInvisibleOutsideAWait : Prop :=
  ∀ (s t : State) (w : Reg) (e : Event), s.runState ≠ .awaitingKey → s.deliver e = .next t →
    ∃ t', ({ s with waitReg := w }).deliver e = .next t' ∧ t = { t' with waitReg := t.waitReg } ∧
      (t.runState = .awaitingKey → t' = t)

/-! ## Timers -/

/-- R146 to R148: DT is read into Vx, and DT and ST are set from Vx. -/
def Obligations.TimerInstructionsMoveTimerValues : Prop :=
  ∀ (s : State) (x : Reg),
    ((Instr.ldVxDt x).encode = 0xF#4 ++ x ++ 0x07#8 ∧ ∃ t, exec (.ldVxDt x) s = .next t ∧
      AdvancedWithRegs s t fun r => if r = x then s.dt else s.reg r) ∧
    ((Instr.ldDtVx x).encode = 0xF#4 ++ x ++ 0x15#8 ∧
      exec (.ldDtVx x) s = .next { s with pc := s.pc + 2, dt := s.reg x }) ∧
    ((Instr.ldStVx x).encode = 0xF#4 ++ x ++ 0x18#8 ∧
      exec (.ldStVx x) s = .next { s with pc := s.pc + 2, st := s.reg x })

/-- Any number of ticks takes that number off each timer, down to 0 and no further, in every run state, and changes
nothing else (R26, R149; in every run state: decision D17). -/
def Obligations.TicksCountBothTimersDownToZero : Prop :=
  ∀ (s : State) (n : Nat), (State.tick^[n] s).dt.toNat = s.dt.toNat - n ∧ (State.tick^[n] s).st.toNat = s.st.toNat - n ∧
    State.tick^[n] s = { s with dt := (State.tick^[n] s).dt, st := (State.tick^[n] s).st } ∧
    s.deliver .tick = .next s.tick

/-- A tick is visible to no instruction but LD Vx,DT: every instruction that does not read or write a timer has the same
effect before and after it (R149, R177). -/
def Obligations.TickIsInvisibleToOtherInstructions : Prop :=
  ∀ (i : Instr) (s t : State), (∀ x, i ≠ .ldVxDt x ∧ i ≠ .ldDtVx x ∧ i ≠ .ldStVx x) → exec i s = .next t →
    exec i s.tick = .next t.tick

/-- R160. -/
def Obligations.AudioViewShowsSoundTimer : Prop :=
  ∀ s : State, s.audioView.1 = s.st ∧ (s.audioView.2 = true ↔ 0 < s.st.toNat)

/-! ## Reset, load, fatal errors -/

/-- Reset gives every item its reset value, from any state (R34, R153; `I`, `run_state` and the latch by decision D31,
`wait_reg` by the model's own choice, log 5; the parameters stay, log 15). -/
def Obligations.ResetEventLeavesResetValues : Prop :=
  ∀ s : State, ∃ t, s.deliver .reset = .next t ∧
    (∀ a, t.readByte a = if a % 4096 < 80 then s.params.fontTable.getD (a % 4096) 0 else 0) ∧
    (∀ r, t.reg r = 0) ∧ t.i = 0 ∧ t.pc = 0x0200#16 ∧ t.sp = 0 ∧ t.dt = 0 ∧ t.st = 0 ∧
    (∀ X Y, t.fb.pixel X Y = false) ∧ (∀ k, t.key k = false) ∧ t.runState = .running ∧ t.waitReg = 0 ∧
    t.errKind = .none ∧ t.errAddr = 0 ∧ t.errBits = 0 ∧ t.params = s.params ∧ t.host = s.host

/-- Right after reset, with the spec's default parameters (log 3) and nothing loaded, a Cycle fetches 0x0000 and halts with UnknownOpcode (R190; T114). -/
def Obligations.CycleBeforeAnyLoadHalts : Prop :=
  State.reset.deliver .cycle =
    .next { State.reset with runState := .halted, errKind := .unknownOpcode, errAddr := 0x0200, errBits := 0x0000 }

/-- Load while Running: a program that fits is copied to 0x200 upward and nothing else changes; one that does not fit
halts the core with nothing written. In another run state Load has no effect (R155, R174; decisions D23, D24). -/
def Obligations.LoadCopiesFittingProgramOrHalts : Prop :=
  ∀ (s : State) (bytes : List Byte),
    (s.runState = .running → 0x200 + bytes.length ≤ 4096 → ∃ t, s.deliver (.load bytes) = .next t ∧
      t = { s with mem := t.mem } ∧ ∀ a < 4096, t.readByte a =
        if 0x200 ≤ a ∧ a < 0x200 + bytes.length then bytes.getD (a - 0x200) 0 else s.readByte a) ∧
    (s.runState = .running → 4096 < 0x200 + bytes.length → s.deliver (.load bytes) =
      .next { s with runState := .halted, errKind := .programTooLarge, errAddr := 0, errBits := 0 }) ∧
    (s.runState ≠ .running → s.deliver (.load bytes) = .next s)

/-- The transitions of R30, all of them, as an event leaves `run_state` (decisions D16, D33). -/
def Obligations.RunStateFollowsTheTransitionTable : Prop :=
  ∀ (s : State) (e : Event), ∃ t, s.deliver e = .next t ∧
    (e = .reset → t.runState = .running) ∧
    (s.runState = .running → ∀ bytes, e = .load bytes →
      t.runState = if 4096 < 0x200 + bytes.length then .halted else .running) ∧
    (s.runState = .running → e = .cycle →
      (t.runState = .awaitingKey ↔ ∃ x, decode s.fetchWord = some (.ldVxK x)) ∧
      (t.runState = .halted ↔ decode s.fetchWord = none ∨
        ((∃ nnn, decode s.fetchWord = some (.call nnn)) ∧ s.sp = s.params.stackDepth) ∨
        (decode s.fetchWord = some .ret ∧ s.sp = 0))) ∧
    (s.runState = .running → e = .tick ∨ (∃ k p, e = .setKey k p) → t.runState = .running) ∧
    (s.runState = .awaitingKey → e ≠ .reset →
      t.runState = if ∃ k, e = .setKey k true ∧ s.key k = false then .running else .awaitingKey) ∧
    (s.runState = .halted → e ≠ .reset → t.runState = .halted)

/-- R181: while Halted no event but Reset resumes the core or touches the latch, and only the timers and the keys can
change; Reset discards the whole state. That the reset state has 0 in `wait_reg` (log 5) and keeps the parameters and the
host's side (log 15) is the model's own. -/
def Obligations.HaltedIsLeftByResetAlone : Prop :=
  ∀ (s : State) (e : Event), s.runState = .halted → ∃ t, s.deliver e = .next t ∧
    (e ≠ .reset → t = { s with dt := t.dt, st := t.st, keys := t.keys }) ∧
    (e = .reset → t = State.resetWith s.params s.host)

/-- A fatal error is precise: the event that raises it changes nothing but `run_state` and the latch; one raised by a
Cycle latches `pc0` and the word fetched there, one raised by a Load latches zeros (R170, R179, R180; decisions D12,
D13; that the stack errors latch the fetched word is log 8). -/
def Obligations.FatalErrorsArePrecise : Prop :=
  ∀ (s t : State) (e : Event), s.safe → s.deliver e = .next t → ¬ t.safe →
    t = { s with runState := .halted, errKind := t.errKind, errAddr := t.errAddr, errBits := t.errBits } ∧
    t.errKind ≠ .none ∧
    (e = .cycle → t.errAddr = s.pc ∧ t.errBits = s.fetchWord ∧ t.errKind ≠ .programTooLarge) ∧
    (e ≠ .cycle → t.errAddr = 0 ∧ t.errBits = 0 ∧ t.errKind = .programTooLarge)

/-- The status view shows `run_state` and the error latch, by the codes of R164 and R170: two states show the same
exactly when they agree in all four (R161; that the latch is in the view is decision D13). -/
def Obligations.StatusViewShowsRunStateAndLatch : Prop :=
  (∀ s : State,
    (s.statusView.runState.toNat = 0 ↔ s.runState = .running) ∧
    (s.statusView.runState.toNat = 1 ↔ s.runState = .awaitingKey) ∧
    (s.statusView.runState.toNat = 2 ↔ s.runState = .halted) ∧
    (s.statusView.errKind.toNat = 0 ↔ s.errKind = .none) ∧
    (s.statusView.errKind.toNat = 1 ↔ s.errKind = .unknownOpcode) ∧
    (s.statusView.errKind.toNat = 2 ↔ s.errKind = .stackOverflow) ∧
    (s.statusView.errKind.toNat = 3 ↔ s.errKind = .stackUnderflow) ∧
    (s.statusView.errKind.toNat = 4 ↔ s.errKind = .programTooLarge)) ∧
  ∀ s t : State, s.statusView = t.statusView ↔
    s.runState = t.runState ∧ s.errKind = t.errKind ∧ s.errAddr = t.errAddr ∧ s.errBits = t.errBits

/-! ## Whole-machine rules -/

/-- A register changes only where the instruction names it, or where it is VF and the instruction is one of the six flag
writers, which leave 0 or 1 in it (R22, R35; decisions D3, D21). -/
def Obligations.OnlyDestinationsAndFlagChangeRegisters : Prop :=
  ∀ (i : Instr) (s t : State), exec i s = .next t →
    (∀ r, i.names r = false → (r = vF → i.writesFlag = false) → t.reg r = s.reg r) ∧
    (i.writesFlag = true → t.reg vF = 0 ∨ t.reg vF = 1)

/-- Each other piece of state is changed only by the instructions R35 lists as its writers. The parameters and the
events the host has laid out, which the model adds, are changed by none (logs 2, 3), the random input by RND alone
(log 1). -/
def Obligations.OnlyListedWritersChangeOtherState : Prop :=
  ∀ (i : Instr) (s t : State), exec i s = .next t →
    (t.i ≠ s.i → (∃ nnn, i = .ldI nnn) ∨ ∃ x, i = .addI x ∨ i = .ldF x) ∧
    (t.stack ≠ s.stack → (∃ nnn, i = .call nnn) ∨ i = .ret) ∧
    (t.dt ≠ s.dt → ∃ x, i = .ldDtVx x) ∧
    (t.st ≠ s.st → ∃ x, i = .ldStVx x) ∧
    (t.fb ≠ s.fb → i = .cls ∨ ∃ x y n, i = .drw x y n) ∧
    t.keys = s.keys ∧
    (t.waitReg ≠ s.waitReg → ∃ x, i = .ldVxK x) ∧
    (t.errKind ≠ s.errKind ∨ t.errAddr ≠ s.errAddr ∨ t.errBits ≠ s.errBits → (∃ nnn, i = .call nnn) ∨ i = .ret) ∧
    (t.host ≠ s.host → ∃ x nn, i = .rnd x nn) ∧
    t.host = { s.host with rndIn := t.host.rndIn, draws := t.host.draws } ∧ t.params = s.params

/-- An instruction that neither jumps nor skips nor waits ends at `pc0 + 2` (R92). -/
def Obligations.OtherInstructionsAdvancePcByTwo : Prop :=
  ∀ (i : Instr) (s t : State), exec i s = .next t →
    (∀ nnn, i ≠ .jp nnn ∧ i ≠ .call nnn ∧ i ≠ .jpV0 nnn) → i ≠ .ret →
    (∀ x y nn, i ≠ .seImm x nn ∧ i ≠ .sneImm x nn ∧ i ≠ .seReg x y ∧ i ≠ .sneReg x y) →
    (∀ x, i ≠ .skp x ∧ i ≠ .sknp x ∧ i ≠ .ldVxK x) → t.pc = s.pc + 2

/-- The reset state meets the invariant. -/
def Obligations.ResetStateMeetsInvariant : Prop := State.reset.Inv

/-- Every event, in every order, keeps the invariant: memory stays in its canonical form with all addresses in range,
the stack within STACK_DEPTH (R25), and the latch clear exactly while the core is not Halted (R32). The canonical form is
the model's own (log 10). -/
def Obligations.EveryStepKeepsTheInvariant : Prop := ∀ s t : State, s.Inv → step s = .next t → t.Inv

/-- A step carries out exactly one event, whole: the first the host has laid out, else the first of those it repeats for
ever, else a FREE one; it takes that event off and changes nothing else of what the host does, nor the parameters (R152,
decision D22; logs 2, 3). Nothing here rests on what a free event is. -/
def Obligations.StepCarriesOutTheNextEvent : Prop :=
  ∀ s : State, ∃ t, step s = .next t ∧ s.takeEvent.deliver s.nextEvent = .next t ∧ t.params = s.params ∧
    t.host.schedule = s.takeEvent.host.schedule ∧ t.host.loop = s.host.loop ∧ t.host.turns = s.takeEvent.host.turns ∧
    (∀ e es, s.host.schedule = e :: es → s.nextEvent = e ∧ s.takeEvent = s.withSchedule es) ∧
    (∀ e es, s.host.schedule = [] → s.host.loop = e :: es → s.nextEvent = e ∧ s.takeEvent = s.withSchedule es) ∧
    (s.host.schedule = [] → s.host.loop = [] → s.nextEvent = Config.hostEvent s.host.turns ∧
      s.takeEvent = { s with host := { s.host with turns := s.host.turns + 1 } })

/-- Every order of events is a run of the machine (R152, decision D22): steps from a host that has laid out `es`, whatever
it does afterwards, carry out `es` one after another; and steps from a host that repeats `es` for ever carry out `es` over
and over, as often as one likes, so that a host that never stops ticking is among the hosts (R163, R197; log 2). -/
def Obligations.EveryOrderOfEventsIsARun : Prop :=
  ∀ (s : State) (es : List Event),
    (∀ rest, core.run es.length (s.withSchedule (es ++ rest)) = deliverAll (s.withSchedule rest) es) ∧
    (∀ n, es ≠ [] → s.host.schedule = [] → s.host.loop = es →
      core.run (n * es.length) s = deliverAll s (List.replicate n es).flatten)

/-- At a jump to itself every further Cycle leaves the whole state unchanged (R199, decision D37). -/
def Obligations.SelfJumpIsTerminal : Prop :=
  ∀ s : State, s.atEnd → s.deliver .cycle = .next s
end

