-- ==== Sys2Proof/Laws/Decode.lean ====
section
/-! SUPPORT. Words and their fields as numbers: the fields of a word built from fields, and a word built from its own
fields (spec/30_encoding.md R71). -/

namespace Sys2Proof

variable (w : Word) (f x y n : Nibble) (nn : Byte) (nnn : Addr)

/-! ## As numbers -/

theorem toNat_family : (family w).toNat = w.toNat / 4096 := by
  have := w.isLt
  simp only [family, BitVec.extractLsb'_toNat, Nat.shiftRight_eq_div_pow]
  omega

theorem toNat_fieldX : (fieldX w).toNat = w.toNat / 256 % 16 := by
  simp only [fieldX, BitVec.extractLsb'_toNat, Nat.shiftRight_eq_div_pow]

theorem toNat_fieldY : (fieldY w).toNat = w.toNat / 16 % 16 := by
  simp only [fieldY, BitVec.extractLsb'_toNat, Nat.shiftRight_eq_div_pow]

theorem toNat_fieldN : (fieldN w).toNat = w.toNat % 16 := by
  simp only [fieldN, BitVec.extractLsb'_toNat, Nat.shiftRight_zero]

theorem toNat_fieldNN : (fieldNN w).toNat = w.toNat % 256 := by
  simp only [fieldNN, BitVec.extractLsb'_toNat, Nat.shiftRight_zero]

theorem toNat_fieldNNN : (fieldNNN w).toNat = w.toNat % 4096 := by
  simp only [fieldNNN, BitVec.extractLsb'_toNat, Nat.shiftRight_zero]

theorem toNat_highByte : (highByte w).toNat = w.toNat / 256 := by
  have := w.isLt
  simp only [highByte, BitVec.extractLsb'_toNat, Nat.shiftRight_eq_div_pow]
  omega

theorem toNat_lowByte : (lowByte w).toNat = w.toNat % 256 := by
  simp only [lowByte, BitVec.extractLsb'_toNat, Nat.shiftRight_zero]

/-- Concatenation as a number. -/
theorem toNat_concat {k m : Nat} (a : BitVec k) (b : BitVec m) : (a ++ b).toNat = a.toNat * 2 ^ m + b.toNat := by
  rw [BitVec.toNat_append, ← Nat.shiftLeft_add_eq_or_of_lt b.isLt, Nat.shiftLeft_eq]

theorem toNat_wordNNN : (wordNNN f nnn).toNat = f.toNat * 4096 + nnn.toNat := toNat_concat f nnn

theorem toNat_wordXNN : (wordXNN f x nn).toNat = f.toNat * 4096 + x.toNat * 256 + nn.toNat := by
  refine (toNat_concat (f ++ x) nn).trans ?_
  rw [toNat_concat f x]
  omega

theorem toNat_wordXYN : (wordXYN f x y n).toNat = f.toNat * 4096 + x.toNat * 256 + y.toNat * 16 + n.toNat := by
  refine (toNat_concat (f ++ x ++ y) n).trans ?_
  rw [toNat_concat (f ++ x) y, toNat_concat f x]
  omega

theorem toNat_wordOfBytes (hi lo : Byte) : (wordOfBytes hi lo).toNat = hi.toNat * 256 + lo.toNat := toNat_concat hi lo

/-! ## The fields of a built word -/

@[simp] theorem family_wordNNN : family (wordNNN f nnn) = f := by
  refine BitVec.eq_of_toNat_eq ?_
  have := f.isLt; have := nnn.isLt
  rw [toNat_family, toNat_wordNNN]; omega

@[simp] theorem fieldNNN_wordNNN : fieldNNN (wordNNN f nnn) = nnn := by
  refine BitVec.eq_of_toNat_eq ?_
  have := f.isLt; have := nnn.isLt
  rw [toNat_fieldNNN, toNat_wordNNN]; omega

@[simp] theorem family_wordXNN : family (wordXNN f x nn) = f := by
  refine BitVec.eq_of_toNat_eq ?_
  have := f.isLt; have := x.isLt; have := nn.isLt
  rw [toNat_family, toNat_wordXNN]; omega

@[simp] theorem fieldX_wordXNN : fieldX (wordXNN f x nn) = x := by
  refine BitVec.eq_of_toNat_eq ?_
  have := f.isLt; have := x.isLt; have := nn.isLt
  rw [toNat_fieldX, toNat_wordXNN]; omega

@[simp] theorem fieldNN_wordXNN : fieldNN (wordXNN f x nn) = nn := by
  refine BitVec.eq_of_toNat_eq ?_
  have := f.isLt; have := x.isLt; have := nn.isLt
  rw [toNat_fieldNN, toNat_wordXNN]; omega

@[simp] theorem family_wordXYN : family (wordXYN f x y n) = f := by
  refine BitVec.eq_of_toNat_eq ?_
  have := f.isLt; have := x.isLt; have := y.isLt; have := n.isLt
  rw [toNat_family, toNat_wordXYN]; omega

@[simp] theorem fieldX_wordXYN : fieldX (wordXYN f x y n) = x := by
  refine BitVec.eq_of_toNat_eq ?_
  have := f.isLt; have := x.isLt; have := y.isLt; have := n.isLt
  rw [toNat_fieldX, toNat_wordXYN]; omega

@[simp] theorem fieldY_wordXYN : fieldY (wordXYN f x y n) = y := by
  refine BitVec.eq_of_toNat_eq ?_
  have := f.isLt; have := x.isLt; have := y.isLt; have := n.isLt
  rw [toNat_fieldY, toNat_wordXYN]; omega

@[simp] theorem fieldN_wordXYN : fieldN (wordXYN f x y n) = n := by
  refine BitVec.eq_of_toNat_eq ?_
  have := f.isLt; have := x.isLt; have := y.isLt; have := n.isLt
  rw [toNat_fieldN, toNat_wordXYN]; omega

/-! ## A word from its own fields -/

theorem wordNNN_fields : wordNNN (family w) (fieldNNN w) = w := by
  refine BitVec.eq_of_toNat_eq ?_
  rw [toNat_wordNNN, toNat_family, toNat_fieldNNN]; omega

theorem wordXNN_fields : wordXNN (family w) (fieldX w) (fieldNN w) = w := by
  refine BitVec.eq_of_toNat_eq ?_
  rw [toNat_wordXNN, toNat_family, toNat_fieldX, toNat_fieldNN]; omega

theorem wordXYN_fields : wordXYN (family w) (fieldX w) (fieldY w) (fieldN w) = w := by
  refine BitVec.eq_of_toNat_eq ?_
  rw [toNat_wordXYN, toNat_family, toNat_fieldX, toNat_fieldY, toNat_fieldN]; omega

/-- A word is its high byte and its low byte (R54). -/
theorem wordOfBytes_highByte_lowByte : wordOfBytes (highByte w) (lowByte w) = w := by
  refine BitVec.eq_of_toNat_eq ?_
  rw [toNat_wordOfBytes, toNat_highByte, toNat_lowByte]; omega

/-! ## Masked words (R75) -/

theorem concat_and_concat {k m : Nat} (a c : BitVec k) (b d : BitVec m) :
    (a ++ b) &&& (c ++ d) = (a &&& c) ++ (b &&& d) := by
  refine BitVec.eq_of_getLsbD_eq fun j hj => ?_
  simp only [BitVec.getLsbD_and, BitVec.getLsbD_append]
  split <;> rfl

theorem concat_and_eq {k m : Nat} (a c : BitVec k) (b d : BitVec m) (mask : BitVec (k + m)) (h : mask = c ++ d) :
    (a ++ b) &&& mask = (a &&& c) ++ (b &&& d) := h ▸ concat_and_concat a c b d

/-- The mask 0xF000 keeps the family. -/
theorem wordNNN_and : wordNNN f nnn &&& 0xF000#16 = wordNNN f 0 := by
  refine (concat_and_eq f 0xF#4 nnn 0x000#12 _ (by decide)).trans ?_
  rw [show (0xF#4 : Nibble) = BitVec.allOnes 4 from rfl, BitVec.and_allOnes, BitVec.and_zero]
  rfl

/-- The mask 0xF000 keeps the family, of a word in format XNN too. -/
theorem and_F000 : w &&& 0xF000#16 = wordNNN (family w) 0 := by
  conv_lhs => rw [← wordNNN_fields w]
  exact wordNNN_and _ _

/-- The mask 0xF0FF keeps the family and the low byte. -/
theorem wordXNN_and : wordXNN f x nn &&& 0xF0FF#16 = wordXNN f 0 nn := by
  refine (concat_and_eq (f ++ x) 0xF0#8 nn 0xFF#8 _ (by decide)).trans ?_
  rw [concat_and_eq f 0xF#4 x 0x0#4 0xF0#8 (by decide), show (0xF#4 : Nibble) = BitVec.allOnes 4 from rfl,
    show (0xFF#8 : Byte) = BitVec.allOnes 8 from rfl, BitVec.and_allOnes, BitVec.and_allOnes, BitVec.and_zero]
  rfl

theorem and_F0FF : w &&& 0xF0FF#16 = wordXNN (family w) 0 (fieldNN w) := by
  conv_lhs => rw [← wordXNN_fields w]
  exact wordXNN_and _ _ _

/-- The mask 0xF00F keeps the family and the low nibble. -/
theorem wordXYN_and : wordXYN f x y n &&& 0xF00F#16 = wordXYN f 0 0 n := by
  refine (concat_and_eq (f ++ x ++ y) 0xF00#12 n 0xF#4 _ (by decide)).trans ?_
  rw [concat_and_eq (f ++ x) 0xF0#8 y 0x0#4 0xF00#12 (by decide), concat_and_eq f 0xF#4 x 0x0#4 0xF0#8 (by decide),
    show (0xF#4 : Nibble) = BitVec.allOnes 4 from rfl, BitVec.and_allOnes, BitVec.and_allOnes, BitVec.and_zero,
    BitVec.and_zero]
  rfl

theorem and_F00F : w &&& 0xF00F#16 = wordXYN (family w) 0 0 (fieldN w) := by
  conv_lhs => rw [← wordXYN_fields w]
  exact wordXYN_and _ _ _ _

theorem and_FFFF : w &&& 0xFFFF#16 = w := by
  rw [show (0xFFFF#16 : Word) = BitVec.allOnes 16 from rfl, BitVec.and_allOnes]

/-- Two words with the same family and low nibble, or low byte, are built alike. -/
theorem wordXYN_inj {f g n m : Nibble} (h : wordXYN f 0 0 n = wordXYN g 0 0 m) : f = g ∧ n = m := by
  have h1 := congrArg family h
  have h2 := congrArg fieldN h
  simp only [family_wordXYN, fieldN_wordXYN] at h1 h2
  exact ⟨h1, h2⟩

end Sys2Proof
end

