-- ==== Sys2Proof/Laws/State.lean ====
section
/-! SUPPORT. What each update of the state leaves in each field: one lemma a field, true by rfl, so that no later proof
unfolds a record update. -/

namespace Sys2Proof.Machine

variable (s : State)

@[simp] theorem State.setReg_mem (x : Reg) (w : Byte) : (s.setReg x w).mem = s.mem := rfl
@[simp] theorem State.setReg_v (x : Reg) (w : Byte) : (s.setReg x w).v = s.v.set x.toNat w x.isLt := rfl
@[simp] theorem State.setReg_i (x : Reg) (w : Byte) : (s.setReg x w).i = s.i := rfl
@[simp] theorem State.setReg_pc (x : Reg) (w : Byte) : (s.setReg x w).pc = s.pc := rfl
@[simp] theorem State.setReg_stack (x : Reg) (w : Byte) : (s.setReg x w).stack = s.stack := rfl
@[simp] theorem State.setReg_dt (x : Reg) (w : Byte) : (s.setReg x w).dt = s.dt := rfl
@[simp] theorem State.setReg_st (x : Reg) (w : Byte) : (s.setReg x w).st = s.st := rfl
@[simp] theorem State.setReg_fb (x : Reg) (w : Byte) : (s.setReg x w).fb = s.fb := rfl
@[simp] theorem State.setReg_keys (x : Reg) (w : Byte) : (s.setReg x w).keys = s.keys := rfl
@[simp] theorem State.setReg_runState (x : Reg) (w : Byte) : (s.setReg x w).runState = s.runState := rfl
@[simp] theorem State.setReg_waitReg (x : Reg) (w : Byte) : (s.setReg x w).waitReg = s.waitReg := rfl
@[simp] theorem State.setReg_errKind (x : Reg) (w : Byte) : (s.setReg x w).errKind = s.errKind := rfl
@[simp] theorem State.setReg_errAddr (x : Reg) (w : Byte) : (s.setReg x w).errAddr = s.errAddr := rfl
@[simp] theorem State.setReg_errBits (x : Reg) (w : Byte) : (s.setReg x w).errBits = s.errBits := rfl
@[simp] theorem State.setReg_params (x : Reg) (w : Byte) : (s.setReg x w).params = s.params := rfl
@[simp] theorem State.setReg_host (x : Reg) (w : Byte) : (s.setReg x w).host = s.host := rfl

@[simp] theorem State.setI_mem (w : Word) : (s.setI w).mem = s.mem := rfl
@[simp] theorem State.setI_v (w : Word) : (s.setI w).v = s.v := rfl
@[simp] theorem State.setI_i (w : Word) : (s.setI w).i = w := rfl
@[simp] theorem State.setI_pc (w : Word) : (s.setI w).pc = s.pc := rfl
@[simp] theorem State.setI_stack (w : Word) : (s.setI w).stack = s.stack := rfl
@[simp] theorem State.setI_dt (w : Word) : (s.setI w).dt = s.dt := rfl
@[simp] theorem State.setI_st (w : Word) : (s.setI w).st = s.st := rfl
@[simp] theorem State.setI_fb (w : Word) : (s.setI w).fb = s.fb := rfl
@[simp] theorem State.setI_keys (w : Word) : (s.setI w).keys = s.keys := rfl
@[simp] theorem State.setI_runState (w : Word) : (s.setI w).runState = s.runState := rfl
@[simp] theorem State.setI_waitReg (w : Word) : (s.setI w).waitReg = s.waitReg := rfl
@[simp] theorem State.setI_errKind (w : Word) : (s.setI w).errKind = s.errKind := rfl
@[simp] theorem State.setI_errAddr (w : Word) : (s.setI w).errAddr = s.errAddr := rfl
@[simp] theorem State.setI_errBits (w : Word) : (s.setI w).errBits = s.errBits := rfl
@[simp] theorem State.setI_params (w : Word) : (s.setI w).params = s.params := rfl
@[simp] theorem State.setI_host (w : Word) : (s.setI w).host = s.host := rfl

@[simp] theorem State.advance_mem : (s.advance).mem = s.mem := rfl
@[simp] theorem State.advance_v : (s.advance).v = s.v := rfl
@[simp] theorem State.advance_i : (s.advance).i = s.i := rfl
@[simp] theorem State.advance_pc : (s.advance).pc = s.pc + 2 := rfl
@[simp] theorem State.advance_stack : (s.advance).stack = s.stack := rfl
@[simp] theorem State.advance_dt : (s.advance).dt = s.dt := rfl
@[simp] theorem State.advance_st : (s.advance).st = s.st := rfl
@[simp] theorem State.advance_fb : (s.advance).fb = s.fb := rfl
@[simp] theorem State.advance_keys : (s.advance).keys = s.keys := rfl
@[simp] theorem State.advance_runState : (s.advance).runState = s.runState := rfl
@[simp] theorem State.advance_waitReg : (s.advance).waitReg = s.waitReg := rfl
@[simp] theorem State.advance_errKind : (s.advance).errKind = s.errKind := rfl
@[simp] theorem State.advance_errAddr : (s.advance).errAddr = s.errAddr := rfl
@[simp] theorem State.advance_errBits : (s.advance).errBits = s.errBits := rfl
@[simp] theorem State.advance_params : (s.advance).params = s.params := rfl
@[simp] theorem State.advance_host : (s.advance).host = s.host := rfl

@[simp] theorem State.jump_mem (w : Word) : (s.jump w).mem = s.mem := rfl
@[simp] theorem State.jump_v (w : Word) : (s.jump w).v = s.v := rfl
@[simp] theorem State.jump_i (w : Word) : (s.jump w).i = s.i := rfl
@[simp] theorem State.jump_pc (w : Word) : (s.jump w).pc = w := rfl
@[simp] theorem State.jump_stack (w : Word) : (s.jump w).stack = s.stack := rfl
@[simp] theorem State.jump_dt (w : Word) : (s.jump w).dt = s.dt := rfl
@[simp] theorem State.jump_st (w : Word) : (s.jump w).st = s.st := rfl
@[simp] theorem State.jump_fb (w : Word) : (s.jump w).fb = s.fb := rfl
@[simp] theorem State.jump_keys (w : Word) : (s.jump w).keys = s.keys := rfl
@[simp] theorem State.jump_runState (w : Word) : (s.jump w).runState = s.runState := rfl
@[simp] theorem State.jump_waitReg (w : Word) : (s.jump w).waitReg = s.waitReg := rfl
@[simp] theorem State.jump_errKind (w : Word) : (s.jump w).errKind = s.errKind := rfl
@[simp] theorem State.jump_errAddr (w : Word) : (s.jump w).errAddr = s.errAddr := rfl
@[simp] theorem State.jump_errBits (w : Word) : (s.jump w).errBits = s.errBits := rfl
@[simp] theorem State.jump_params (w : Word) : (s.jump w).params = s.params := rfl
@[simp] theorem State.jump_host (w : Word) : (s.jump w).host = s.host := rfl

@[simp] theorem State.setDt_mem (w : Byte) : (s.setDt w).mem = s.mem := rfl
@[simp] theorem State.setDt_v (w : Byte) : (s.setDt w).v = s.v := rfl
@[simp] theorem State.setDt_i (w : Byte) : (s.setDt w).i = s.i := rfl
@[simp] theorem State.setDt_pc (w : Byte) : (s.setDt w).pc = s.pc := rfl
@[simp] theorem State.setDt_stack (w : Byte) : (s.setDt w).stack = s.stack := rfl
@[simp] theorem State.setDt_dt (w : Byte) : (s.setDt w).dt = w := rfl
@[simp] theorem State.setDt_st (w : Byte) : (s.setDt w).st = s.st := rfl
@[simp] theorem State.setDt_fb (w : Byte) : (s.setDt w).fb = s.fb := rfl
@[simp] theorem State.setDt_keys (w : Byte) : (s.setDt w).keys = s.keys := rfl
@[simp] theorem State.setDt_runState (w : Byte) : (s.setDt w).runState = s.runState := rfl
@[simp] theorem State.setDt_waitReg (w : Byte) : (s.setDt w).waitReg = s.waitReg := rfl
@[simp] theorem State.setDt_errKind (w : Byte) : (s.setDt w).errKind = s.errKind := rfl
@[simp] theorem State.setDt_errAddr (w : Byte) : (s.setDt w).errAddr = s.errAddr := rfl
@[simp] theorem State.setDt_errBits (w : Byte) : (s.setDt w).errBits = s.errBits := rfl
@[simp] theorem State.setDt_params (w : Byte) : (s.setDt w).params = s.params := rfl
@[simp] theorem State.setDt_host (w : Byte) : (s.setDt w).host = s.host := rfl

@[simp] theorem State.setSt_mem (w : Byte) : (s.setSt w).mem = s.mem := rfl
@[simp] theorem State.setSt_v (w : Byte) : (s.setSt w).v = s.v := rfl
@[simp] theorem State.setSt_i (w : Byte) : (s.setSt w).i = s.i := rfl
@[simp] theorem State.setSt_pc (w : Byte) : (s.setSt w).pc = s.pc := rfl
@[simp] theorem State.setSt_stack (w : Byte) : (s.setSt w).stack = s.stack := rfl
@[simp] theorem State.setSt_dt (w : Byte) : (s.setSt w).dt = s.dt := rfl
@[simp] theorem State.setSt_st (w : Byte) : (s.setSt w).st = w := rfl
@[simp] theorem State.setSt_fb (w : Byte) : (s.setSt w).fb = s.fb := rfl
@[simp] theorem State.setSt_keys (w : Byte) : (s.setSt w).keys = s.keys := rfl
@[simp] theorem State.setSt_runState (w : Byte) : (s.setSt w).runState = s.runState := rfl
@[simp] theorem State.setSt_waitReg (w : Byte) : (s.setSt w).waitReg = s.waitReg := rfl
@[simp] theorem State.setSt_errKind (w : Byte) : (s.setSt w).errKind = s.errKind := rfl
@[simp] theorem State.setSt_errAddr (w : Byte) : (s.setSt w).errAddr = s.errAddr := rfl
@[simp] theorem State.setSt_errBits (w : Byte) : (s.setSt w).errBits = s.errBits := rfl
@[simp] theorem State.setSt_params (w : Byte) : (s.setSt w).params = s.params := rfl
@[simp] theorem State.setSt_host (w : Byte) : (s.setSt w).host = s.host := rfl

@[simp] theorem State.push_mem (w : Word) : (s.push w).mem = s.mem := rfl
@[simp] theorem State.push_v (w : Word) : (s.push w).v = s.v := rfl
@[simp] theorem State.push_i (w : Word) : (s.push w).i = s.i := rfl
@[simp] theorem State.push_pc (w : Word) : (s.push w).pc = s.pc := rfl
@[simp] theorem State.push_stack (w : Word) : (s.push w).stack = s.stack ++ [w] := rfl
@[simp] theorem State.push_dt (w : Word) : (s.push w).dt = s.dt := rfl
@[simp] theorem State.push_st (w : Word) : (s.push w).st = s.st := rfl
@[simp] theorem State.push_fb (w : Word) : (s.push w).fb = s.fb := rfl
@[simp] theorem State.push_keys (w : Word) : (s.push w).keys = s.keys := rfl
@[simp] theorem State.push_runState (w : Word) : (s.push w).runState = s.runState := rfl
@[simp] theorem State.push_waitReg (w : Word) : (s.push w).waitReg = s.waitReg := rfl
@[simp] theorem State.push_errKind (w : Word) : (s.push w).errKind = s.errKind := rfl
@[simp] theorem State.push_errAddr (w : Word) : (s.push w).errAddr = s.errAddr := rfl
@[simp] theorem State.push_errBits (w : Word) : (s.push w).errBits = s.errBits := rfl
@[simp] theorem State.push_params (w : Word) : (s.push w).params = s.params := rfl
@[simp] theorem State.push_host (w : Word) : (s.push w).host = s.host := rfl

@[simp] theorem State.writeByte_mem (a : Nat) (w : Byte) : (s.writeByte a w).mem = s.mem.write s.params (a % Config.memSize) w := rfl
@[simp] theorem State.writeByte_v (a : Nat) (w : Byte) : (s.writeByte a w).v = s.v := rfl
@[simp] theorem State.writeByte_i (a : Nat) (w : Byte) : (s.writeByte a w).i = s.i := rfl
@[simp] theorem State.writeByte_pc (a : Nat) (w : Byte) : (s.writeByte a w).pc = s.pc := rfl
@[simp] theorem State.writeByte_stack (a : Nat) (w : Byte) : (s.writeByte a w).stack = s.stack := rfl
@[simp] theorem State.writeByte_dt (a : Nat) (w : Byte) : (s.writeByte a w).dt = s.dt := rfl
@[simp] theorem State.writeByte_st (a : Nat) (w : Byte) : (s.writeByte a w).st = s.st := rfl
@[simp] theorem State.writeByte_fb (a : Nat) (w : Byte) : (s.writeByte a w).fb = s.fb := rfl
@[simp] theorem State.writeByte_keys (a : Nat) (w : Byte) : (s.writeByte a w).keys = s.keys := rfl
@[simp] theorem State.writeByte_runState (a : Nat) (w : Byte) : (s.writeByte a w).runState = s.runState := rfl
@[simp] theorem State.writeByte_waitReg (a : Nat) (w : Byte) : (s.writeByte a w).waitReg = s.waitReg := rfl
@[simp] theorem State.writeByte_errKind (a : Nat) (w : Byte) : (s.writeByte a w).errKind = s.errKind := rfl
@[simp] theorem State.writeByte_errAddr (a : Nat) (w : Byte) : (s.writeByte a w).errAddr = s.errAddr := rfl
@[simp] theorem State.writeByte_errBits (a : Nat) (w : Byte) : (s.writeByte a w).errBits = s.errBits := rfl
@[simp] theorem State.writeByte_params (a : Nat) (w : Byte) : (s.writeByte a w).params = s.params := rfl
@[simp] theorem State.writeByte_host (a : Nat) (w : Byte) : (s.writeByte a w).host = s.host := rfl

@[simp] theorem State.writeKey_mem (k : Nibble) (p : Bool) : (s.writeKey k p).mem = s.mem := rfl
@[simp] theorem State.writeKey_v (k : Nibble) (p : Bool) : (s.writeKey k p).v = s.v := rfl
@[simp] theorem State.writeKey_i (k : Nibble) (p : Bool) : (s.writeKey k p).i = s.i := rfl
@[simp] theorem State.writeKey_pc (k : Nibble) (p : Bool) : (s.writeKey k p).pc = s.pc := rfl
@[simp] theorem State.writeKey_stack (k : Nibble) (p : Bool) : (s.writeKey k p).stack = s.stack := rfl
@[simp] theorem State.writeKey_dt (k : Nibble) (p : Bool) : (s.writeKey k p).dt = s.dt := rfl
@[simp] theorem State.writeKey_st (k : Nibble) (p : Bool) : (s.writeKey k p).st = s.st := rfl
@[simp] theorem State.writeKey_fb (k : Nibble) (p : Bool) : (s.writeKey k p).fb = s.fb := rfl
@[simp] theorem State.writeKey_runState (k : Nibble) (p : Bool) : (s.writeKey k p).runState = s.runState := rfl
@[simp] theorem State.writeKey_waitReg (k : Nibble) (p : Bool) : (s.writeKey k p).waitReg = s.waitReg := rfl
@[simp] theorem State.writeKey_errKind (k : Nibble) (p : Bool) : (s.writeKey k p).errKind = s.errKind := rfl
@[simp] theorem State.writeKey_errAddr (k : Nibble) (p : Bool) : (s.writeKey k p).errAddr = s.errAddr := rfl
@[simp] theorem State.writeKey_errBits (k : Nibble) (p : Bool) : (s.writeKey k p).errBits = s.errBits := rfl
@[simp] theorem State.writeKey_params (k : Nibble) (p : Bool) : (s.writeKey k p).params = s.params := rfl
@[simp] theorem State.writeKey_host (k : Nibble) (p : Bool) : (s.writeKey k p).host = s.host := rfl

@[simp] theorem State.raise_mem (k : ErrKind) (a b : Word) : (s.raise k a b).mem = s.mem := rfl
@[simp] theorem State.raise_v (k : ErrKind) (a b : Word) : (s.raise k a b).v = s.v := rfl
@[simp] theorem State.raise_i (k : ErrKind) (a b : Word) : (s.raise k a b).i = s.i := rfl
@[simp] theorem State.raise_pc (k : ErrKind) (a b : Word) : (s.raise k a b).pc = s.pc := rfl
@[simp] theorem State.raise_stack (k : ErrKind) (a b : Word) : (s.raise k a b).stack = s.stack := rfl
@[simp] theorem State.raise_dt (k : ErrKind) (a b : Word) : (s.raise k a b).dt = s.dt := rfl
@[simp] theorem State.raise_st (k : ErrKind) (a b : Word) : (s.raise k a b).st = s.st := rfl
@[simp] theorem State.raise_fb (k : ErrKind) (a b : Word) : (s.raise k a b).fb = s.fb := rfl
@[simp] theorem State.raise_keys (k : ErrKind) (a b : Word) : (s.raise k a b).keys = s.keys := rfl
@[simp] theorem State.raise_runState (k : ErrKind) (a b : Word) : (s.raise k a b).runState = .halted := rfl
@[simp] theorem State.raise_waitReg (k : ErrKind) (a b : Word) : (s.raise k a b).waitReg = s.waitReg := rfl
@[simp] theorem State.raise_errKind (k : ErrKind) (a b : Word) : (s.raise k a b).errKind = k := rfl
@[simp] theorem State.raise_errAddr (k : ErrKind) (a b : Word) : (s.raise k a b).errAddr = a := rfl
@[simp] theorem State.raise_errBits (k : ErrKind) (a b : Word) : (s.raise k a b).errBits = b := rfl
@[simp] theorem State.raise_params (k : ErrKind) (a b : Word) : (s.raise k a b).params = s.params := rfl
@[simp] theorem State.raise_host (k : ErrKind) (a b : Word) : (s.raise k a b).host = s.host := rfl

@[simp] theorem State.tick_mem : (s.tick).mem = s.mem := rfl
@[simp] theorem State.tick_v : (s.tick).v = s.v := rfl
@[simp] theorem State.tick_i : (s.tick).i = s.i := rfl
@[simp] theorem State.tick_pc : (s.tick).pc = s.pc := rfl
@[simp] theorem State.tick_stack : (s.tick).stack = s.stack := rfl
@[simp] theorem State.tick_dt : (s.tick).dt = timerStep s.dt := rfl
@[simp] theorem State.tick_st : (s.tick).st = timerStep s.st := rfl
@[simp] theorem State.tick_fb : (s.tick).fb = s.fb := rfl
@[simp] theorem State.tick_keys : (s.tick).keys = s.keys := rfl
@[simp] theorem State.tick_runState : (s.tick).runState = s.runState := rfl
@[simp] theorem State.tick_waitReg : (s.tick).waitReg = s.waitReg := rfl
@[simp] theorem State.tick_errKind : (s.tick).errKind = s.errKind := rfl
@[simp] theorem State.tick_errAddr : (s.tick).errAddr = s.errAddr := rfl
@[simp] theorem State.tick_errBits : (s.tick).errBits = s.errBits := rfl
@[simp] theorem State.tick_params : (s.tick).params = s.params := rfl
@[simp] theorem State.tick_host : (s.tick).host = s.host := rfl

@[simp] theorem State.withSchedule_mem (es : List Event) : (s.withSchedule es).mem = s.mem := rfl
@[simp] theorem State.withSchedule_v (es : List Event) : (s.withSchedule es).v = s.v := rfl
@[simp] theorem State.withSchedule_i (es : List Event) : (s.withSchedule es).i = s.i := rfl
@[simp] theorem State.withSchedule_pc (es : List Event) : (s.withSchedule es).pc = s.pc := rfl
@[simp] theorem State.withSchedule_stack (es : List Event) : (s.withSchedule es).stack = s.stack := rfl
@[simp] theorem State.withSchedule_dt (es : List Event) : (s.withSchedule es).dt = s.dt := rfl
@[simp] theorem State.withSchedule_st (es : List Event) : (s.withSchedule es).st = s.st := rfl
@[simp] theorem State.withSchedule_fb (es : List Event) : (s.withSchedule es).fb = s.fb := rfl
@[simp] theorem State.withSchedule_keys (es : List Event) : (s.withSchedule es).keys = s.keys := rfl
@[simp] theorem State.withSchedule_runState (es : List Event) : (s.withSchedule es).runState = s.runState := rfl
@[simp] theorem State.withSchedule_waitReg (es : List Event) : (s.withSchedule es).waitReg = s.waitReg := rfl
@[simp] theorem State.withSchedule_errKind (es : List Event) : (s.withSchedule es).errKind = s.errKind := rfl
@[simp] theorem State.withSchedule_errAddr (es : List Event) : (s.withSchedule es).errAddr = s.errAddr := rfl
@[simp] theorem State.withSchedule_errBits (es : List Event) : (s.withSchedule es).errBits = s.errBits := rfl
@[simp] theorem State.withSchedule_params (es : List Event) : (s.withSchedule es).params = s.params := rfl
@[simp] theorem State.withSchedule_host (es : List Event) : (s.withSchedule es).host = { s.host with schedule := es } := rfl

@[simp] theorem State.completeWait_mem (k : Nibble) : (s.completeWait k).mem = s.mem := rfl
@[simp] theorem State.completeWait_v (k : Nibble) : (s.completeWait k).v = s.v.set s.waitReg.toNat (zextNibble k) s.waitReg.isLt := rfl
@[simp] theorem State.completeWait_i (k : Nibble) : (s.completeWait k).i = s.i := rfl
@[simp] theorem State.completeWait_pc (k : Nibble) : (s.completeWait k).pc = s.pc + 2 := rfl
@[simp] theorem State.completeWait_stack (k : Nibble) : (s.completeWait k).stack = s.stack := rfl
@[simp] theorem State.completeWait_dt (k : Nibble) : (s.completeWait k).dt = s.dt := rfl
@[simp] theorem State.completeWait_st (k : Nibble) : (s.completeWait k).st = s.st := rfl
@[simp] theorem State.completeWait_fb (k : Nibble) : (s.completeWait k).fb = s.fb := rfl
@[simp] theorem State.completeWait_keys (k : Nibble) : (s.completeWait k).keys = s.keys := rfl
@[simp] theorem State.completeWait_runState (k : Nibble) : (s.completeWait k).runState = .running := rfl
@[simp] theorem State.completeWait_waitReg (k : Nibble) : (s.completeWait k).waitReg = s.waitReg := rfl
@[simp] theorem State.completeWait_errKind (k : Nibble) : (s.completeWait k).errKind = s.errKind := rfl
@[simp] theorem State.completeWait_errAddr (k : Nibble) : (s.completeWait k).errAddr = s.errAddr := rfl
@[simp] theorem State.completeWait_errBits (k : Nibble) : (s.completeWait k).errBits = s.errBits := rfl
@[simp] theorem State.completeWait_params (k : Nibble) : (s.completeWait k).params = s.params := rfl
@[simp] theorem State.completeWait_host (k : Nibble) : (s.completeWait k).host = s.host := rfl

@[simp] theorem State.resetEvent_mem : (s.resetEvent).mem = [] := rfl
@[simp] theorem State.resetEvent_v : (s.resetEvent).v = Vector.replicate 16 0 := rfl
@[simp] theorem State.resetEvent_i : (s.resetEvent).i = 0 := rfl
@[simp] theorem State.resetEvent_pc : (s.resetEvent).pc = 0x200 := rfl
@[simp] theorem State.resetEvent_stack : (s.resetEvent).stack = [] := rfl
@[simp] theorem State.resetEvent_dt : (s.resetEvent).dt = 0 := rfl
@[simp] theorem State.resetEvent_st : (s.resetEvent).st = 0 := rfl
@[simp] theorem State.resetEvent_fb : (s.resetEvent).fb = FrameBuffer.clear := rfl
@[simp] theorem State.resetEvent_keys : (s.resetEvent).keys = 0 := rfl
@[simp] theorem State.resetEvent_runState : (s.resetEvent).runState = .running := rfl
@[simp] theorem State.resetEvent_waitReg : (s.resetEvent).waitReg = 0 := rfl
@[simp] theorem State.resetEvent_errKind : (s.resetEvent).errKind = .none := rfl
@[simp] theorem State.resetEvent_errAddr : (s.resetEvent).errAddr = 0 := rfl
@[simp] theorem State.resetEvent_errBits : (s.resetEvent).errBits = 0 := rfl
@[simp] theorem State.resetEvent_params : (s.resetEvent).params = s.params := rfl
@[simp] theorem State.resetEvent_host : (s.resetEvent).host = s.host := rfl

end Sys2Proof.Machine
end

