-- ==== Sys2Proof/Laws/Memory.lean ====
section
/-! SUPPORT. Memory: a read after a write, and the canonical form (spec/20_memory.md R51 to R53; log 10). -/

namespace Sys2Proof.Machine

variable (p : Config.Params) (m : Memory) (a b : Nat) (w : Byte)

theorem Memory.lookup_insert : (m.insert a w).lookup b = if b = a then some w else m.lookup b := by
  induction m with
  | nil => simp [Memory.insert, Memory.lookup]
  | cons c m ih =>
    obtain ⟨d, u⟩ := c
    simp only [Memory.insert]
    split
    · simp [Memory.lookup]
    · split
      · subst_vars
        simp only [Memory.lookup]
        split <;> rfl
      · simp only [Memory.lookup, ih]
        split <;> split <;> simp_all

theorem Memory.lookup_erase : (m.erase a).lookup b = if b = a then none else m.lookup b := by
  induction m with
  | nil => simp [Memory.erase, Memory.lookup]
  | cons c m ih =>
    obtain ⟨d, u⟩ := c
    simp only [Memory.erase]
    split
    · subst_vars
      simp only [ih, Memory.lookup]
      split <;> rfl
    · simp only [Memory.lookup, ih]
      split <;> split <;> simp_all

/-- A read after a write: the written byte at the address written, the old byte everywhere else. -/
theorem Memory.read_write : (m.write p a w).read p b = if b = a then w else m.read p b := by
  unfold Memory.write Memory.read
  split
  · rw [Memory.lookup_erase]
    split <;> simp_all
  · rw [Memory.lookup_insert]
    split <;> simp

theorem Memory.mem_insert {c : Host.Cell} (h : c ∈ m.insert a w) : c = (a, w) ∨ c ∈ m := by
  induction m with
  | nil => simpa [Memory.insert] using h
  | cons d m ih =>
    obtain ⟨d, u⟩ := d
    simp only [Memory.insert] at h
    split at h
    · simpa using h
    · split at h
      · rcases List.mem_cons.1 h with h | h <;> simp [h]
      · rcases List.mem_cons.1 h with h | h
        · simp [h]
        · rcases ih h with h | h <;> simp [h]

theorem Memory.mem_erase {c : Host.Cell} (h : c ∈ m.erase a) : c ∈ m := by
  induction m with
  | nil => simp [Memory.erase] at h
  | cons d m ih =>
    obtain ⟨d, u⟩ := d
    simp only [Memory.erase] at h
    split at h
    · exact List.mem_cons_of_mem _ (ih h)
    · rcases List.mem_cons.1 h with h | h
      · simp [h]
      · exact List.mem_cons_of_mem _ (ih h)

theorem Memory.sorted_insert (h : m.Pairwise (fun c d => c.1 < d.1)) :
    (m.insert a w).Pairwise (fun c d => c.1 < d.1) := by
  induction m with
  | nil => simp [Memory.insert]
  | cons c m ih =>
    obtain ⟨d, u⟩ := c
    rw [List.pairwise_cons] at h
    simp only [Memory.insert]
    split
    · rename_i had
      refine List.pairwise_cons.2 ⟨fun c hc => ?_, List.pairwise_cons.2 h⟩
      rcases List.mem_cons.1 hc with rfl | hc
      · exact had
      · exact lt_trans had (h.1 c hc)
    · split
      · subst_vars
        exact List.pairwise_cons.2 h
      · refine List.pairwise_cons.2 ⟨fun c hc => ?_, ih h.2⟩
        rcases Memory.mem_insert m a w hc with rfl | hc
        · dsimp only; omega
        · exact h.1 c hc

theorem Memory.sorted_erase (h : m.Pairwise (fun c d => c.1 < d.1)) :
    (m.erase a).Pairwise (fun c d => c.1 < d.1) := by
  induction m with
  | nil => simp [Memory.erase]
  | cons c m ih =>
    rw [List.pairwise_cons] at h
    simp only [Memory.erase]
    split
    · exact ih h.2
    · exact List.pairwise_cons.2 ⟨fun c hc => h.1 c (Memory.mem_erase m a hc), ih h.2⟩

/-- A write at an address in range keeps the canonical form. -/
theorem Memory.wf_write (ha : a < Config.memSize) (h : Memory.wf p m) : Memory.wf p (m.write p a w) := by
  unfold Memory.write
  split
  · exact ⟨Memory.sorted_erase m a h.1, fun c hc => h.2 c (Memory.mem_erase m a hc)⟩
  · refine ⟨Memory.sorted_insert m a w h.1, fun c hc => ?_⟩
    rcases Memory.mem_insert m a w hc with rfl | hc
    · exact ⟨ha, ‹_›⟩
    · exact h.2 c hc

theorem Memory.wf_nil : Memory.wf p [] := by simp [Memory.wf]

/-- Canonical memories that list the same bytes are equal. -/
theorem Memory.ext_lookup {m n : Memory} (hm : m.Pairwise (fun c d => c.1 < d.1))
    (hn : n.Pairwise (fun c d => c.1 < d.1)) (h : ∀ a, m.lookup a = n.lookup a) : m = n := by
  have below : ∀ (l : Memory) (a : Nat), (∀ c ∈ l, a < c.1) → l.lookup a = none := by
    intro l a hl
    induction l with
    | nil => rfl
    | cons c l ih =>
      obtain ⟨d, u⟩ := c
      have hd : a < d := hl (d, u) (by simp)
      rw [Memory.lookup, if_neg (by omega)]
      exact ih fun c hc => hl c (by simp [hc])
  induction m generalizing n with
  | nil =>
    cases n with
    | nil => rfl
    | cons c n => obtain ⟨d, u⟩ := c; simpa [Memory.lookup] using h d
  | cons c m ih =>
    obtain ⟨d, u⟩ := c
    cases n with
    | nil => simpa [Memory.lookup] using h d
    | cons c' n =>
      obtain ⟨e, t⟩ := c'
      rw [List.pairwise_cons] at hm hn
      have hde : d = e := by
        rcases Nat.lt_trichotomy d e with hlt | heq | hgt
        · have := h d
          rw [below ((e, t) :: n) d (by
            intro c hc
            rcases List.mem_cons.1 hc with rfl | hc
            · exact hlt
            · exact lt_trans hlt (hn.1 c hc))] at this
          simp [Memory.lookup] at this
        · exact heq
        · have := h e
          rw [below ((d, u) :: m) e (by
            intro c hc
            rcases List.mem_cons.1 hc with rfl | hc
            · exact hgt
            · exact lt_trans hgt (hm.1 c hc))] at this
          simp [Memory.lookup] at this
      subst hde
      have hut : u = t := by simpa [Memory.lookup] using h d
      subst hut
      congr 1
      refine ih hm.2 hn.2 fun a => ?_
      by_cases had : a = d
      · subst had
        rw [below m a hm.1, below n a hn.1]
      · simpa [Memory.lookup, had] using h a

/-- Canonical memories that read the same everywhere are equal data. -/
theorem Memory.ext_read {m n : Memory} (hm : Memory.wf p m) (hn : Memory.wf p n)
    (h : ∀ a < Config.memSize, m.read p a = n.read p a) : m = n := by
  have listed : ∀ {l : Memory}, Memory.wf p l → ∀ {a u}, l.lookup a = some u →
      a < Config.memSize ∧ u ≠ Memory.background p a := by
    intro l hl a u hu
    have hmem : (a, u) ∈ l := by
      clear hl
      induction l with
      | nil => simp [Memory.lookup] at hu
      | cons c l ih =>
        obtain ⟨d, t⟩ := c
        rw [Memory.lookup] at hu
        split at hu
        · subst_vars
          simp_all
        · exact List.mem_cons_of_mem _ (ih hu)
    exact hl.2 _ hmem
  refine Memory.ext_lookup hm.1 hn.1 fun a => ?_
  cases hma : m.lookup a with
  | none =>
    cases hna : n.lookup a with
    | none => rfl
    | some u =>
      have hu := listed hn hna
      have := h a hu.1
      simp only [Memory.read, hma, hna, Option.getD] at this
      exact absurd this.symm hu.2
  | some u =>
    have hu := listed hm hma
    have := h a hu.1
    cases hna : n.lookup a with
    | none =>
      simp only [Memory.read, hma, hna, Option.getD] at this
      exact absurd this hu.2
    | some t =>
      simp only [Memory.read, hma, hna, Option.getD] at this
      rw [this]

end Sys2Proof.Machine
end

