-- ==== Sys2Proof/Laws/Ops.lean ====
section
/-! SUPPORT. One lemma for each shared operation: everything it can do. Later proofs cite these and unfold none of
them. -/

namespace Sys2Proof.Machine

variable (s : State)

/-! ## Memory -/

/-- MemWrite then MemRead (R51 to R53). -/
theorem State.readByte_writeByte (a b : Nat) (w : Byte) :
    (s.writeByte a w).readByte b = if b % Config.memSize = a % Config.memSize then w else s.readByte b := by
  simp only [State.readByte, State.writeByte]
  exact Memory.read_write _ _ _ _ _

/-- Reading looks at memory and the font alone. -/
theorem State.readByte_congr {t : State} (hm : t.mem = s.mem) (hp : t.params = s.params) (a : Nat) :
    t.readByte a = s.readByte a := by simp [State.readByte, hm, hp]

theorem State.writeBytes_eq (bs : List Byte) : ∀ (s : State) (a : Nat),
    s.writeBytes a bs = { s with mem := (s.writeBytes a bs).mem } := by
  induction bs with
  | nil => intro s a; rfl
  | cons b bs ih => intro s a; rw [State.writeBytes, ih]; rfl

/-- Bytes written at rising addresses, no more than memory holds, stand where they were written. -/
theorem State.readByte_writeBytes (bs : List Byte) : ∀ (s : State) (a b : Nat), a + bs.length ≤ Config.memSize →
    b < Config.memSize →
    (s.writeBytes a bs).readByte b = if h : a ≤ b ∧ b < a + bs.length then bs[b - a] else s.readByte b := by
  induction bs with
  | nil =>
    intro s a b _ _
    rw [dif_neg (by rw [List.length_nil]; omega)]
    rfl
  | cons w bs ih =>
    intro s a b hlen hb
    simp only [List.length_cons] at hlen
    rw [State.writeBytes, ih _ _ _ (by omega) hb, State.readByte_writeByte, Nat.mod_eq_of_lt hb,
      Nat.mod_eq_of_lt (by omega)]
    by_cases h1 : a + 1 ≤ b ∧ b < a + 1 + bs.length
    · rw [dif_pos h1, dif_pos (by simp; omega)]
      have : b - a = (b - (a + 1)) + 1 := by omega
      simp only [this, List.getElem_cons_succ]
    · rw [dif_neg h1]
      by_cases h2 : b = a
      · subst h2
        rw [if_pos rfl, dif_pos (by simp)]
        simp
      · rw [if_neg h2, dif_neg (by simp; omega)]

theorem State.wf_writeByte (a : Nat) (w : Byte) (h : Memory.wf s.params s.mem) :
    Memory.wf (s.writeByte a w).params (s.writeByte a w).mem :=
  Memory.wf_write _ _ _ _ (Nat.mod_lt _ (by decide)) h

theorem State.wf_writeBytes (bs : List Byte) : ∀ (s : State) (a : Nat), Memory.wf s.params s.mem →
    Memory.wf (s.writeBytes a bs).params (s.writeBytes a bs).mem := by
  induction bs with
  | nil => intro s a h; exact h
  | cons b bs ih => intro s a h; exact ih _ _ (State.wf_writeByte s a b h)

/-! ## Registers -/

/-- Write then read a register: none is hard-wired (R21). -/
theorem State.reg_setReg (x y : Reg) (w : Byte) : (s.setReg x w).reg y = if y = x then w else s.reg y := by
  simp [State.reg, State.setReg, Vector.get_eq_getElem, Vector.getElem_set, BitVec.toNat_inj, eq_comm]

/-- Reading a register looks at `V` alone. -/
theorem State.reg_congr {t : State} (h : t.v = s.v) (x : Reg) : t.reg x = s.reg x := by simp [State.reg, h]

/-- Two states with the same registers have the same `V`. -/
theorem State.v_ext {t : State} (h : ∀ x, t.reg x = s.reg x) : t.v = s.v := by
  refine Vector.ext fun k hk => ?_
  have := h (BitVec.ofNat 4 k)
  simpa [State.reg, Vector.get_eq_getElem, Nat.mod_eq_of_lt hk] using this

/-- A skip moves `pc` by 4 from `pc0`, or leaves it at `pc0 + 2` (R103). -/
theorem State.advance_skipIf (c : Bool) :
    s.advance.skipIf c = { s with pc := s.pc + if c then 4 else 2 } := by
  cases c
  · rfl
  · simp [State.skipIf, State.advance, BitVec.add_assoc]

/-- A result and its flag: the flag wins in VF (R110). -/
theorem State.reg_setRegAndFlag (x r : Reg) (w : Byte) (f : Bool) :
    (s.setRegAndFlag x w f).reg r = if r = vF then flagByte f else if r = x then w else s.reg r := by
  show ((s.setReg x w).setReg vF (flagByte f)).reg r = _
  rw [State.reg_setReg, State.reg_setReg]

theorem State.setRegAndFlag_eq (x : Reg) (w : Byte) (f : Bool) :
    s.setRegAndFlag x w f = { s with v := (s.setRegAndFlag x w f).v } := rfl

theorem State.useRnd_eq : s.useRnd = { s with host := s.useRnd.host } := by
  unfold State.useRnd
  split <;> rfl

/-! ## Stack -/

theorem State.pop_empty (h : s.stack = []) : s.pop = none := by simp [State.pop, h]

theorem State.pop_append {ws : List Word} {w : Word} (h : s.stack = ws ++ [w]) :
    s.pop = some (w, { s with stack := ws }) := by simp [State.pop, h]

/-- A stack is empty, or it has a newest entry. -/
theorem stack_cases (ws : List Word) : ws = [] ∨ ∃ us u, ws = us ++ [u] := by
  rcases List.eq_nil_or_concat ws with h | ⟨us, u, h⟩
  · exact .inl h
  · exact .inr ⟨us, u, by simpa using h⟩

/-! ## Frame buffer -/

theorem FrameBuffer.pixel_toggle (fb : FrameBuffer) (x X : Fin Config.fbWidth) (y Y : Fin Config.fbHeight) :
    (fb.toggle x y).pixel X Y = ((fb.pixel X Y) ^^ decide (X = x ∧ Y = y)) := by
  have hx : x.val < 64 := x.isLt
  have hX : X.val < 64 := X.isLt
  unfold FrameBuffer.toggle FrameBuffer.pixel
  by_cases hy : Y = y
  · subst hy
    by_cases hxx : X = x
    · subst hxx; simp [hX]
    · have : X.val ≠ x.val := fun h => hxx (Fin.ext h)
      by_cases hlt : X.val < x.val
      · simp [hX, hxx, hlt]
      · have : ¬ (X.val - x.val = 0) := by omega
        simp [hX, hxx, hlt, this]
  · have : y.val ≠ Y.val := fun h => hy (Fin.ext h.symm)
    simp [hy, this]

theorem FrameBuffer.pixel_clear (x : Fin Config.fbWidth) (y : Fin Config.fbHeight) :
    FrameBuffer.clear.pixel x y = false := by
  simp [FrameBuffer.pixel, FrameBuffer.clear]

/-- Two frame buffers with the same pixels are equal. -/
theorem FrameBuffer.ext_pixel {f g : FrameBuffer} (h : ∀ x y, f.pixel x y = g.pixel x y) : f = g := by
  refine Vector.ext fun k hk => ?_
  refine BitVec.eq_of_getLsbD_eq fun c hc => ?_
  simpa [FrameBuffer.pixel] using h ⟨c, hc⟩ ⟨k, hk⟩

/-! ## Keypad -/

theorem State.key_writeKey (k j : Nibble) (p : Bool) : (s.writeKey k p).key j = if j = k then p else s.key j := by
  have hj : j.toNat < 16 := j.isLt
  have hk : k.toNat < 16 := k.isLt
  unfold State.writeKey State.key
  by_cases h : j = k
  · subst h
    cases p <;> simp [hj]
  · have hne : j.toNat ≠ k.toNat := fun e => h (BitVec.eq_of_toNat_eq e)
    cases p
    · by_cases hlt : j.toNat < k.toNat
      · simp [h, hj, hlt]
      · have : ¬ (j.toNat - k.toNat = 0) := by omega
        simp [h, hj, this]
    · by_cases hlt : j.toNat < k.toNat
      · simp [h, hj, hlt]
      · have : ¬ (j.toNat - k.toNat = 0) := by omega
        simp [h, hj, hlt, this]

/-- A key written with the state it has: nothing changes (R158). -/
theorem State.writeKey_same (k : Nibble) : s.writeKey k (s.key k) = s := by
  have : (s.writeKey k (s.key k)).keys = s.keys := by
    refine BitVec.eq_of_getLsbD_eq fun j hj => ?_
    have := State.key_writeKey s k (BitVec.ofNat 4 j) (s.key k)
    unfold State.key at this ⊢
    rw [BitVec.toNat_ofNat, Nat.mod_eq_of_lt hj] at this
    rw [this]
    split
    · rename_i h
      rw [← h, BitVec.toNat_ofNat, Nat.mod_eq_of_lt hj]
    · rfl
  exact congrArg (fun ks => { s with keys := ks }) this

/-! ## Block transfers -/

theorem State.storeUpTo_eq (n : Nat) : s.storeUpTo n = { s with mem := (s.storeUpTo n).mem } := by
  induction n with
  | zero => rfl
  | succ n ih => rw [State.storeUpTo, ih]; rfl

theorem State.loadUpTo_eq (n : Nat) : s.loadUpTo n = { s with v := (s.loadUpTo n).v } := by
  induction n with
  | zero => rfl
  | succ n ih => rw [State.loadUpTo, ih]; rfl

/-- After storing `n` registers, at most 16: byte `I + k` holds register `k`, and no other byte has changed. -/
theorem State.readByte_storeUpTo (n : Nat) (hn : n ≤ 16) (b : Nat) :
    (∀ k < n, b % Config.memSize = s.indexed k % Config.memSize →
      (s.storeUpTo n).readByte b = s.reg (regOfNat k)) ∧
    ((∀ k < n, b % Config.memSize ≠ s.indexed k % Config.memSize) →
      (s.storeUpTo n).readByte b = s.readByte b) := by
  induction n with
  | zero => exact ⟨fun k hk => absurd hk (by omega), fun _ => rfl⟩
  | succ n ih =>
    obtain ⟨ih1, ih2⟩ := ih (by omega)
    rw [State.storeUpTo, State.readByte_writeByte]
    constructor
    · intro k hk hb
      by_cases hkn : k = n
      · subst hkn; rw [if_pos hb]
      · rw [if_neg, ih1 k (by omega) hb]
        rw [hb]
        simp only [State.indexed, Config.memSize]
        omega
    · intro h
      rw [if_neg (h n (by omega)), ih2 fun k hk => h k (by omega)]

/-- After loading `n` registers, at most 16: register `k` below `n` holds byte `I + k`, the others are unchanged. -/
theorem State.reg_loadUpTo (n : Nat) (hn : n ≤ 16) (r : Reg) :
    (s.loadUpTo n).reg r = if r.toNat < n then s.readByte (s.indexed r.toNat) else s.reg r := by
  induction n with
  | zero => simp [State.loadUpTo]
  | succ n ih =>
    rw [State.loadUpTo, State.reg_setReg, ih (by omega)]
    by_cases h : r = regOfNat n
    · have : r.toNat = n := by rw [h, regOfNat, BitVec.toNat_ofNat, Nat.mod_eq_of_lt (by omega)]
      rw [if_pos h, if_pos (by omega), this]
    · have : r.toNat ≠ n := fun e => h (BitVec.eq_of_toNat_eq (by
        rw [e, regOfNat, BitVec.toNat_ofNat, Nat.mod_eq_of_lt (by omega)]))
      rw [if_neg h]
      by_cases hlt : r.toNat < n
      · rw [if_pos hlt, if_pos (by omega)]
      · rw [if_neg hlt, if_neg (by omega)]

theorem State.wf_storeUpTo (n : Nat) (h : Memory.wf s.params s.mem) :
    Memory.wf (s.storeUpTo n).params (s.storeUpTo n).mem := by
  induction n with
  | zero => exact h
  | succ n ih => exact State.wf_writeByte _ _ _ ih

/-! ## Random input -/

/-- A byte the host has laid out is used, and only it. -/
theorem State.useRnd_listed {r : Byte} {rs : List Byte} (h : s.host.rndIn = r :: rs) :
    s.rndByte = r ∧ s.useRnd = { s with host := { s.host with rndIn := rs } } := by
  constructor <;> simp [State.rndByte, State.useRnd, h]

/-- With none laid out the byte is free, and the next draw is another. -/
theorem State.useRnd_free (h : s.host.rndIn = []) :
    s.rndByte = Config.rndInput s.host.draws ∧
      s.useRnd = { s with host := { s.host with draws := s.host.draws + 1 } } := by
  constructor <;> simp [State.rndByte, State.useRnd, h]

end Sys2Proof.Machine
end

