-- ==== Sys2Proof/Laws/Display.lean ====
section
/-! SUPPORT. What drawing a sprite does to each pixel and to the collision flag (spec/45_display.md R136). -/

namespace Sys2Proof.Machine

theorem spriteColumn_inj {cx : Byte} {c d : Nat} (hc : c < 8) (hd : d < 8) (h : spriteColumn cx c = spriteColumn cx d) :
    c = d := by
  have := congrArg Fin.val h
  simp only [spriteColumn, Fin.val_ofNat, Config.fbWidth] at this
  omega

theorem spriteRow_inj {cy : Byte} {r q : Nat} (hr : r < 16) (hq : q < 16) (h : spriteRow cy r = spriteRow cy q) :
    r = q := by
  have := congrArg Fin.val h
  simp only [spriteRow, Fin.val_ofNat, Config.fbHeight] at this
  omega

theorem spriteColumn_eq_iff {cx : Byte} {c : Nat} {X : Fin Config.fbWidth} :
    X = spriteColumn cx c ↔ X.val = (cx.toNat + c) % 64 := by
  simp [spriteColumn, Fin.ext_iff, Config.fbWidth]

theorem spriteRow_eq_iff {cy : Byte} {r : Nat} {Y : Fin Config.fbHeight} :
    Y = spriteRow cy r ↔ Y.val = (cy.toNat + r) % 32 := by
  simp [spriteRow, Fin.ext_iff, Config.fbHeight]

theorem Canvas.pixel_plot (k : Canvas) (x X : Fin Config.fbWidth) (y Y : Fin Config.fbHeight) :
    (k.plot x y).1.pixel X Y = true ↔ (k.1.pixel X Y = true ↔ ¬ (X = x ∧ Y = y)) := by
  simp only [Canvas.plot, FrameBuffer.pixel_toggle]
  by_cases h : X = x ∧ Y = y <;> simp [h]

/-- Toggling on `A` and then on `B`, which exclude each other, is toggling on either. -/
theorem toggle_toggle {P A B : Prop} (h : ¬ (A ∧ B)) : ((P ↔ ¬ A) ↔ ¬ B) ↔ (P ↔ ¬ (A ∨ B)) := by
  by_cases A <;> by_cases B <;> by_cases P <;> simp_all

/-- The first `n` bits of a sprite row: exactly the pixels under a 1 bit are toggled. -/
theorem Canvas.pixel_drawBits (k : Canvas) (b cx : Byte) (y Y : Fin Config.fbHeight) (X : Fin Config.fbWidth) (n : Nat)
    (hn : n ≤ 8) : (k.drawBits b cx y n).1.pixel X Y = true ↔
      (k.1.pixel X Y = true ↔ ¬ (Y = y ∧ ∃ c < n, b.getLsbD (7 - c) = true ∧ X = spriteColumn cx c)) := by
  induction n with
  | zero => simp [Canvas.drawBits]
  | succ n ih =>
    rw [Nat.exists_lt_succ_right, and_or_left]
    simp only [Canvas.drawBits]
    by_cases hb : b.getLsbD (7 - n) = true
    · rw [if_pos hb, Canvas.pixel_plot, ih (by omega), toggle_toggle]
      · simp only [hb, true_and, and_comm (a := X = _)]
      · rintro ⟨⟨-, c, hc, -, he⟩, hX, -⟩
        have := spriteColumn_inj (by omega) (by omega) (he.symm.trans hX)
        omega
    · rw [if_neg hb, ih (by omega)]
      simp only [hb, false_and, and_false, or_false, Bool.false_eq_true]

/-- The collision flag after `n` bits: set before, or one of the toggled pixels was on. -/
theorem Canvas.hit_drawBits (k : Canvas) (b cx : Byte) (y : Fin Config.fbHeight) (n : Nat) (hn : n ≤ 8) :
    (k.drawBits b cx y n).2 = true ↔
      (k.2 = true ∨ ∃ c < n, b.getLsbD (7 - c) = true ∧ k.1.pixel (spriteColumn cx c) y = true) := by
  induction n with
  | zero => simp [Canvas.drawBits]
  | succ n ih =>
    rw [Nat.exists_lt_succ_right, ← or_assoc, ← ih (by omega)]
    simp only [Canvas.drawBits]
    by_cases hb : b.getLsbD (7 - n) = true
    · rw [if_pos hb]
      have hpix : (k.drawBits b cx y n).1.pixel (spriteColumn cx n) y = true ↔
          k.1.pixel (spriteColumn cx n) y = true := by
        rw [Canvas.pixel_drawBits _ _ _ _ _ _ _ (by omega)]
        have : ¬ (y = y ∧ ∃ c < n, b.getLsbD (7 - c) = true ∧ spriteColumn cx n = spriteColumn cx c) := by
          rintro ⟨-, c, hc, -, he⟩
          have := spriteColumn_inj (by omega) (by omega) he
          omega
        exact ⟨fun h => h.2 this, fun h => ⟨fun _ => this, fun _ => h⟩⟩
      simp only [Canvas.plot, Bool.or_eq_true, hpix, hb, true_and]
    · rw [if_neg hb]
      simp only [hb, false_and, or_false, Bool.false_eq_true]

/-- The pixel is under a 1 bit of the first `n` rows of the sprite at `I`. -/
def covered (s : State) (cx cy : Byte) (n : Nat) (X : Fin Config.fbWidth) (Y : Fin Config.fbHeight) : Prop :=
  ∃ r < n, ∃ c < 8, (s.readByte (s.indexed r)).getLsbD (7 - c) = true ∧ X = spriteColumn cx c ∧ Y = spriteRow cy r

theorem spriteCovers_iff (s : State) (cx cy : Byte) (n : Nibble) (X : Fin Config.fbWidth) (Y : Fin Config.fbHeight) :
    spriteCovers s cx cy n X Y ↔ covered s cx cy n.toNat X Y := by
  simp only [spriteCovers, covered, spriteColumn_eq_iff, spriteRow_eq_iff, State.indexed]

theorem covered_succ (s : State) (cx cy : Byte) (n : Nat) (X : Fin Config.fbWidth) (Y : Fin Config.fbHeight) :
    covered s cx cy (n + 1) X Y ↔ covered s cx cy n X Y ∨
      (Y = spriteRow cy n ∧ ∃ c < 8, (s.readByte (s.indexed n)).getLsbD (7 - c) = true ∧ X = spriteColumn cx c) := by
  unfold covered
  rw [Nat.exists_lt_succ_right]
  refine or_congr Iff.rfl ⟨?_, ?_⟩
  · rintro ⟨c, hc, hb, hX, hY⟩; exact ⟨hY, c, hc, hb, hX⟩
  · rintro ⟨hY, c, hc, hb, hX⟩; exact ⟨c, hc, hb, hX, hY⟩

theorem not_covered_spriteRow (s : State) (cx cy : Byte) (n : Nat) (hn : n < 16) (X : Fin Config.fbWidth) :
    ¬ covered s cx cy n X (spriteRow cy n) := by
  rintro ⟨r, hr, c, -, -, -, he⟩
  have := spriteRow_inj hn (by omega) he
  omega

/-- Drawing `n` rows, at most 15: exactly the covered pixels are toggled (R136). -/
theorem State.pixel_drawRows (s : State) (k : Canvas) (cx cy : Byte) (n : Nat) (hn : n ≤ 16) (X : Fin Config.fbWidth)
    (Y : Fin Config.fbHeight) : (s.drawRows k cx cy n).1.pixel X Y = true ↔
      (k.1.pixel X Y = true ↔ ¬ covered s cx cy n X Y) := by
  induction n with
  | zero => simp [State.drawRows, covered]
  | succ n ih =>
    rw [State.drawRows, Canvas.pixel_drawBits _ _ _ _ _ _ _ le_rfl, ih (by omega), covered_succ, toggle_toggle]
    rintro ⟨hc, rfl, -⟩
    exact not_covered_spriteRow s cx cy n (by omega) X hc

/-- The collision flag after `n` rows: set before, or a covered pixel was on (R136). -/
theorem State.hit_drawRows (s : State) (k : Canvas) (cx cy : Byte) (n : Nat) (hn : n ≤ 16) :
    (s.drawRows k cx cy n).2 = true ↔
      (k.2 = true ∨ ∃ X Y, covered s cx cy n X Y ∧ k.1.pixel X Y = true) := by
  induction n with
  | zero => simp [State.drawRows, covered]
  | succ n ih =>
    rw [State.drawRows, Canvas.hit_drawBits _ _ _ _ _ le_rfl, ih (by omega)]
    have hpix : ∀ X, (s.drawRows k cx cy n).1.pixel X (spriteRow cy n) = true ↔
        k.1.pixel X (spriteRow cy n) = true := by
      intro X
      rw [State.pixel_drawRows s k cx cy n (by omega)]
      have := not_covered_spriteRow s cx cy n (by omega) X
      simp only [this, not_false_eq_true, iff_true]
    simp only [hpix, covered_succ]
    constructor
    · rintro ((h | ⟨X, Y, hc, hp⟩) | ⟨c, hc, hb, hp⟩)
      · exact .inl h
      · exact .inr ⟨X, Y, .inl hc, hp⟩
      · exact .inr ⟨_, _, .inr ⟨rfl, c, hc, hb, rfl⟩, hp⟩
    · rintro (h | ⟨X, Y, hc | ⟨rfl, c, hc, hb, rfl⟩, hp⟩)
      · exact .inl (.inl h)
      · exact .inl (.inr ⟨X, Y, hc, hp⟩)
      · exact .inr ⟨c, hc, hb, hp⟩

end Sys2Proof.Machine
end

