-- ==== Sys2Proof/Laws/Events.lean ====
section
/-! SUPPORT. What each event can do (spec/50_interfaces.md R153 to R158), case by case, and what the one operation with
a condition on `pc` leaves alone. Later proofs cite these and unfold no event. -/

namespace Sys2Proof.Machine

variable {s : State}

/-! ## The host's side -/

/-- Taking the next event changes the host's side alone. -/
theorem State.takeEvent_eq (s : State) : s.takeEvent = { s with host := s.takeEvent.host } := by
  unfold State.takeEvent
  split <;> rfl

/-- The first event the host has laid out. -/
theorem State.next_scheduled {e : Event} {es : List Event} (h : s.host.schedule = e :: es) :
    s.nextEvent = e ∧ s.takeEvent = s.withSchedule es := by
  constructor
  · simp [State.nextEvent, h]
  · simp [State.takeEvent, h, State.withSchedule]

/-- The first of the events the host repeats. -/
theorem State.next_repeated {e : Event} {es : List Event} (h : s.host.schedule = []) (hl : s.host.loop = e :: es) :
    s.nextEvent = e ∧ s.takeEvent = s.withSchedule es := by
  constructor
  · simp [State.nextEvent, h, hl]
  · simp [State.takeEvent, h, hl, State.withSchedule]

/-- A free event. -/
theorem State.next_free (h : s.host.schedule = []) (hl : s.host.loop = []) :
    s.nextEvent = Config.hostEvent s.host.turns ∧
      s.takeEvent = { s with host := { s.host with turns := s.host.turns + 1 } } := by
  constructor
  · simp [State.nextEvent, h, hl]
  · simp [State.takeEvent, h, hl]

/-! What is laid out for later has no part in any operation: each commutes with laying out other events. -/

theorem State.storeUpTo_withSchedule (s : State) (es : List Event) (n : Nat) :
    (s.withSchedule es).storeUpTo n = (s.storeUpTo n).withSchedule es := by
  induction n with
  | zero => rfl
  | succ n ih => rw [State.storeUpTo, State.storeUpTo, ih]; rfl

theorem State.loadUpTo_withSchedule (s : State) (es : List Event) (n : Nat) :
    (s.withSchedule es).loadUpTo n = (s.loadUpTo n).withSchedule es := by
  induction n with
  | zero => rfl
  | succ n ih => rw [State.loadUpTo, State.loadUpTo, ih]; rfl

theorem State.drawRows_withSchedule (s : State) (es : List Event) (k : Canvas) (cx cy : Byte) (n : Nat) :
    (s.withSchedule es).drawRows k cx cy n = s.drawRows k cx cy n := by
  induction n with
  | zero => rfl
  | succ n ih => rw [State.drawRows, State.drawRows, ih]; rfl

theorem State.writeBytes_withSchedule (bs : List Byte) (es : List Event) : ∀ (s : State) (a : Nat),
    (s.withSchedule es).writeBytes a bs = (s.writeBytes a bs).withSchedule es := by
  induction bs with
  | nil => intro s a; rfl
  | cons b bs ih => intro s a; rw [State.writeBytes, State.writeBytes, ← ih]; rfl

theorem State.useRnd_withSchedule (s : State) (es : List Event) :
    (s.withSchedule es).useRnd = s.useRnd.withSchedule es := by
  unfold State.useRnd State.withSchedule
  dsimp only
  split <;> rfl

theorem State.skipIf_withSchedule (s : State) (es : List Event) (c : Bool) :
    (s.withSchedule es).skipIf c = (s.skipIf c).withSchedule es := by cases c <;> rfl

/-- An instruction neither reads nor changes what the host has laid out. -/
theorem exec_withSchedule (i : Instr) {s t : State} (es : List Event) (h : exec i s = .next t) :
    exec i (s.withSchedule es) = .next (t.withSchedule es) := by
  cases i
  case call nnn =>
    change execCall nnn s = _ at h
    show execCall nnn (s.withSchedule es) = _
    unfold execCall at h ⊢
    dsimp only at h ⊢
    by_cases hf : s.sp = s.params.stackDepth
    · rw [if_pos (show s.advance.sp = s.advance.params.stackDepth from hf)] at h
      cases h
      exact if_pos hf
    · rw [if_neg (show ¬ s.advance.sp = s.advance.params.stackDepth from hf)] at h
      cases h
      exact if_neg hf
  case ret =>
    change execRet s = _ at h
    show execRet (s.withSchedule es) = _
    unfold execRet at h ⊢
    rcases stack_cases s.stack with hs | ⟨ws, w, hs⟩
    · rw [State.pop_empty (s := s.advance) hs] at h
      rw [State.pop_empty (s := (s.withSchedule es).advance) hs]
      cases h
      rfl
    · rw [State.pop_append (s := s.advance) hs] at h
      rw [State.pop_append (s := (s.withSchedule es).advance) hs]
      cases h
      rfl
  case loadRegs x => cases h; exact congrArg Host.Outcome.next (State.loadUpTo_withSchedule s.advance es _)
  case storeRegs x => cases h; exact congrArg Host.Outcome.next (State.storeUpTo_withSchedule s.advance es _)
  case rnd x nn =>
    cases h
    exact congrArg (fun u : State => (.next (u.setReg x (s.rndByte &&& nn)) : Result)) (State.useRnd_withSchedule s.advance es)
  case drw x y n =>
    cases h
    exact congrArg (fun k : Canvas => (.next ({ (s.withSchedule es).advance with fb := k.1 }.setReg vF (flagByte k.2)) : Result))
      (State.drawRows_withSchedule s es (s.fb, false) (s.reg x) (s.reg y) n.toNat)
  all_goals
    cases h
    first | rfl | exact congrArg Host.Outcome.next (State.skipIf_withSchedule s.advance es _)

/-! ## The events -/

/-- A skip changes `pc` alone. -/
theorem State.skipIf_eq (s : State) (c : Bool) : s.skipIf c = { s with pc := (s.skipIf c).pc } := by cases c <;> rfl

/-- A timer's step as a number: down by one, held at zero (R149). -/
theorem toNat_timerStep (w : Byte) : (timerStep w).toNat = w.toNat - 1 := by
  unfold timerStep
  split
  · subst_vars; rfl
  · bv_omega

/-- Everything a Cycle can do: the instruction, the UnknownOpcode error, or nothing (R90, R91). -/
theorem State.cycle_cases (s : State) :
    (∃ i, s.runState = .running ∧ decode s.fetchWord = some i ∧ s.cycle = exec i s) ∨
    (s.runState = .running ∧ decode s.fetchWord = none ∧ s.cycle = .next (s.raise .unknownOpcode s.pc s.fetchWord)) ∨
    (s.runState ≠ .running ∧ s.cycle = .next s) := by
  cases hr : s.runState with
  | running =>
    cases hd : decode s.fetchWord with
    | some i => exact .inl ⟨i, rfl, rfl, by simp [State.cycle, hr, hd]⟩
    | none => exact .inr (.inl ⟨rfl, rfl, by simp [State.cycle, hr, hd]⟩)
  | awaitingKey => exact .inr (.inr ⟨by simp, by simp [State.cycle, hr]⟩)
  | halted => exact .inr (.inr ⟨by simp, by simp [State.cycle, hr]⟩)

/-- Everything a Load can do: copy the program, raise ProgramTooLarge, or nothing (R155, R174). -/
theorem State.load_cases (s : State) (bytes : List Byte) :
    (s.runState = .running ∧ Config.programBase + bytes.length ≤ Config.memSize ∧
      s.load bytes = s.writeBytes Config.programBase bytes) ∨
    (s.runState = .running ∧ Config.memSize < Config.programBase + bytes.length ∧
      s.load bytes = s.raise .programTooLarge 0 0) ∨
    (s.runState ≠ .running ∧ s.load bytes = s) := by
  unfold State.load
  cases s.runState with
  | running =>
    by_cases h : Config.memSize < Config.programBase + bytes.length
    · exact .inr (.inl ⟨rfl, h, if_pos h⟩)
    · exact .inl ⟨rfl, by omega, if_neg h⟩
  | awaitingKey => exact .inr (.inr ⟨by simp, rfl⟩)
  | halted => exact .inr (.inr ⟨by simp, rfl⟩)

/-- A new press completes a pending wait (R143). -/
theorem State.setKey_completes {k : Nibble} (hw : s.runState = .awaitingKey) (hk : s.key k = false) :
    s.setKey k true = (s.writeKey k true).completeWait k := by
  unfold State.setKey
  exact if_pos ⟨hw, rfl, hk⟩

/-- Any other SetKey writes the key alone (R158). -/
theorem State.setKey_plain {k : Nibble} {pressed : Bool}
    (h : ¬ (s.runState = .awaitingKey ∧ pressed = true ∧ s.key k = false)) : s.setKey k pressed = s.writeKey k pressed := by
  unfold State.setKey
  exact if_neg h

end Sys2Proof.Machine
end

