-- ==== Sys2Proof/Laws/PerInstr.lean ====
section
/-! SUPPORT. The family RowMatch: the word of every instruction selects the instruction's own row of the opcode map
(spec/30_encoding.md R74, R75). -/

namespace Sys2Proof.Laws.RowMatch

/-- The encoder's word has the row's fixed bits. -/
def Statement (i : Instr) : Prop := i.encode &&& i.row.mask = i.row.bits

theorem cls : Statement .cls := rfl

theorem ret : Statement .ret := rfl

theorem jp (nnn : Addr) : Statement (.jp nnn) := (and_F000 _).trans (by simp [Instr.encode]; rfl)

theorem call (nnn : Addr) : Statement (.call nnn) := (and_F000 _).trans (by simp [Instr.encode]; rfl)

theorem ldI (nnn : Addr) : Statement (.ldI nnn) := (and_F000 _).trans (by simp [Instr.encode]; rfl)

theorem jpV0 (nnn : Addr) : Statement (.jpV0 nnn) := (and_F000 _).trans (by simp [Instr.encode]; rfl)

theorem seImm (x : Reg) (nn : Byte) : Statement (.seImm x nn) :=
  (and_F000 _).trans (by simp [Instr.encode]; rfl)

theorem sneImm (x : Reg) (nn : Byte) : Statement (.sneImm x nn) :=
  (and_F000 _).trans (by simp [Instr.encode]; rfl)

theorem ldImm (x : Reg) (nn : Byte) : Statement (.ldImm x nn) :=
  (and_F000 _).trans (by simp [Instr.encode]; rfl)

theorem addImm (x : Reg) (nn : Byte) : Statement (.addImm x nn) :=
  (and_F000 _).trans (by simp [Instr.encode]; rfl)

theorem rnd (x : Reg) (nn : Byte) : Statement (.rnd x nn) :=
  (and_F000 _).trans (by simp [Instr.encode]; rfl)

theorem seReg (x y : Reg) : Statement (.seReg x y) := (and_F00F _).trans (by simp [Instr.encode]; rfl)

theorem ldReg (x y : Reg) : Statement (.ldReg x y) := (and_F00F _).trans (by simp [Instr.encode]; rfl)

theorem orReg (x y : Reg) : Statement (.orReg x y) := (and_F00F _).trans (by simp [Instr.encode]; rfl)

theorem andReg (x y : Reg) : Statement (.andReg x y) := (and_F00F _).trans (by simp [Instr.encode]; rfl)

theorem xorReg (x y : Reg) : Statement (.xorReg x y) := (and_F00F _).trans (by simp [Instr.encode]; rfl)

theorem addReg (x y : Reg) : Statement (.addReg x y) := (and_F00F _).trans (by simp [Instr.encode]; rfl)

theorem sub (x y : Reg) : Statement (.sub x y) := (and_F00F _).trans (by simp [Instr.encode]; rfl)

theorem shr (x y : Reg) : Statement (.shr x y) := (and_F00F _).trans (by simp [Instr.encode]; rfl)

theorem subn (x y : Reg) : Statement (.subn x y) := (and_F00F _).trans (by simp [Instr.encode]; rfl)

theorem shl (x y : Reg) : Statement (.shl x y) := (and_F00F _).trans (by simp [Instr.encode]; rfl)

theorem sneReg (x y : Reg) : Statement (.sneReg x y) := (and_F00F _).trans (by simp [Instr.encode]; rfl)

theorem drw (x y : Reg) (n : Nibble) : Statement (.drw x y n) :=
  (and_F000 _).trans (by simp [Instr.encode]; rfl)

theorem skp (x : Reg) : Statement (.skp x) := (and_F0FF _).trans (by simp [Instr.encode]; rfl)

theorem sknp (x : Reg) : Statement (.sknp x) := (and_F0FF _).trans (by simp [Instr.encode]; rfl)

theorem ldVxDt (x : Reg) : Statement (.ldVxDt x) := (and_F0FF _).trans (by simp [Instr.encode]; rfl)

theorem ldVxK (x : Reg) : Statement (.ldVxK x) := (and_F0FF _).trans (by simp [Instr.encode]; rfl)

theorem ldDtVx (x : Reg) : Statement (.ldDtVx x) := (and_F0FF _).trans (by simp [Instr.encode]; rfl)

theorem ldStVx (x : Reg) : Statement (.ldStVx x) := (and_F0FF _).trans (by simp [Instr.encode]; rfl)

theorem addI (x : Reg) : Statement (.addI x) := (and_F0FF _).trans (by simp [Instr.encode]; rfl)

theorem ldF (x : Reg) : Statement (.ldF x) := (and_F0FF _).trans (by simp [Instr.encode]; rfl)

theorem ldB (x : Reg) : Statement (.ldB x) := (and_F0FF _).trans (by simp [Instr.encode]; rfl)

theorem storeRegs (x : Reg) : Statement (.storeRegs x) := (and_F0FF _).trans (by simp [Instr.encode]; rfl)

theorem loadRegs (x : Reg) : Statement (.loadRegs x) := (and_F0FF _).trans (by simp [Instr.encode]; rfl)

end Sys2Proof.Laws.RowMatch
end

