-- ==== Sys2Proof/Tests/Slice0.lean ====
section
/-! SUPPORT. The author's own tests. Expected results are the vectors of spec/95_test_vectors.md (S and T numbers), which
the spec derives by hand from its rules, or are worked from the rule named. Then one witness for each statement that
has hypotheses: concrete data that meet them all. -/

namespace Sys2Proof.Tests
open Sys2Proof.Machine

/-! ## Helpers -/

/-- The reset state with a word at 0x0200. -/
def start (w : Nat) : State := State.reset.withFetchWord 16 w

/-- The outcome is a next state that passes a check. -/
def after (r : Result) (p : State → Bool) : Bool :=
  match r with
  | .next t => p t
  | _ => false

/-- The bytes at `a`, `a + 1`, ... -/
def bytesAt (s : State) (a n : Nat) : List Nat := (List.range n).map (fun k => (s.readByte (a + k)).toNat)

/-- A state whose stack holds `n` entries. -/
def withDepth (s : State) (n : Nat) : State := { s with stack := List.replicate n 0x0206 }

/-- The rows of the frame buffer that hold a pixel, with their number. -/
def litRows (s : State) : List (Nat × Nat) :=
  (List.range 32).filterMap (fun y => if s.fb[y]! = 0 then none else some (y, (s.fb[y]!).toNat))

/-- Waiting for a key at 0x0208, for register `x` (T93). -/
def waiting (x : Reg) : State := { State.reset with pc := 0x0208, runState := .awaitingKey, waitReg := x }

/-- A host that raises Ticks for ever and no other event. -/
def endlessTicks : State := { State.reset with dt := 3, host := ⟨[], [.tick], 0, [], 0⟩ }

/-- Stopped by a fatal error. -/
def stopped : State := State.reset.raise .unknownOpcode 0x0200 0xFFFF

/-! ## Well-formedness: each check refuses an ill-formed term -/

theorem test_nibble_refuses : fitsNibble 16 = false ∧ fitsNibble 15 = true := by decide
theorem test_byte_refuses : fitsByte 256 = false ∧ fitsByte 255 = true := by decide
theorem test_addr_refuses : fitsAddr 4096 = false ∧ fitsAddr 4095 = true := by decide
theorem test_depth_refuses : ({ stackDepth := 0, fontTable := Config.defaultFont } : Config.Params).wf = false := by decide
theorem test_font_refuses : ({ stackDepth := 1, fontTable := List.replicate 79 0 } : Config.Params).wf = false := by decide
theorem test_params_accepts : ({ stackDepth := 1, fontTable := List.replicate 80 0 } : Config.Params).wf = true := by decide
theorem test_default_params : Config.defaultParams.wf = true := by decide
theorem test_memory_refuses_order : ¬ Memory.wf Config.defaultParams [(0x301, 1), (0x300, 1)] := by decide
theorem test_memory_refuses_range : ¬ Memory.wf Config.defaultParams [(0x1000, 1)] := by decide
theorem test_memory_refuses_background : ¬ Memory.wf Config.defaultParams [(0x000, 0xF0)] := by decide
theorem test_instr_wf : Instr.wf (.drw 0xF 0xF 0xF) = true ∧ Instr.wf (.call 0xFFF) = true := by decide

/-! ## Decoding: a word written out for every constructor (T2), unknown words (T3) -/

theorem test_decode_fixed : decode 0x00E0 = some .cls ∧ decode 0x00EE = some .ret := by decide
theorem test_decode_nnn : decode 0x1234 = some (.jp 0x234) ∧ decode 0x2FFF = some (.call 0xFFF) ∧
    decode 0xA2F0 = some (.ldI 0x2F0) ∧ decode 0xB300 = some (.jpV0 0x300) := by decide
theorem test_decode_xnn : decode 0x3A00 = some (.seImm 0xA 0x00) ∧ decode 0x4F01 = some (.sneImm 0xF 0x01) ∧
    decode 0x6A7F = some (.ldImm 0xA 0x7F) ∧ decode 0x7002 = some (.addImm 0x0 0x02) ∧
    decode 0xC30F = some (.rnd 0x3 0x0F) := by decide
theorem test_decode_xy_skips : decode 0x5120 = some (.seReg 0x1 0x2) ∧ decode 0x9AB0 = some (.sneReg 0xA 0xB) := by decide
theorem test_decode_xy_logic : decode 0x8AB0 = some (.ldReg 0xA 0xB) ∧ decode 0x8AB1 = some (.orReg 0xA 0xB) ∧
    decode 0x8AB2 = some (.andReg 0xA 0xB) ∧ decode 0x8AB3 = some (.xorReg 0xA 0xB) := by decide
theorem test_decode_xy_arith : decode 0x8AB4 = some (.addReg 0xA 0xB) ∧ decode 0x8AB5 = some (.sub 0xA 0xB) ∧
    decode 0x8AB6 = some (.shr 0xA 0xB) ∧ decode 0x8AB7 = some (.subn 0xA 0xB) ∧
    decode 0x8ABE = some (.shl 0xA 0xB) := by decide
theorem test_decode_draw_keys : decode 0xD123 = some (.drw 0x1 0x2 0x3) ∧ decode 0xE19E = some (.skp 0x1) ∧
    decode 0xE1A1 = some (.sknp 0x1) := by decide
theorem test_decode_f_timers : decode 0xF107 = some (.ldVxDt 0x1) ∧ decode 0xF10A = some (.ldVxK 0x1) ∧
    decode 0xF115 = some (.ldDtVx 0x1) ∧ decode 0xF118 = some (.ldStVx 0x1) := by decide
theorem test_decode_f_memory : decode 0xF11E = some (.addI 0x1) ∧ decode 0xF129 = some (.ldF 0x1) ∧
    decode 0xF133 = some (.ldB 0x1) ∧ decode 0xF155 = some (.storeRegs 0x1) ∧
    decode 0xF165 = some (.loadRegs 0x1) ∧ decode 0xFF65 = some (.loadRegs 0xF) := by decide
theorem test_unknown_low : decode 0x0000 = none ∧ decode 0x0001 = none ∧ decode 0x00E1 = none ∧ decode 0x00EF = none ∧ decode 0x00FD = none ∧
    decode 0x0123 = none ∧ decode 0x0FFF = none ∧ decode 0x5121 = none ∧ decode 0x512F = none := by decide
theorem test_unknown_8_9 : decode 0x8AB8 = none ∧ decode 0x8AB9 = none ∧ decode 0x8ABD = none ∧ decode 0x8ABF = none ∧ decode 0x9AB1 = none := by decide
theorem test_unknown_e_f : decode 0xE19F = none ∧ decode 0xE1A0 = none ∧ decode 0xE100 = none ∧ decode 0xF100 = none ∧ decode 0xF106 = none ∧
    decode 0xF130 = none ∧ decode 0xF175 = none ∧ decode 0xF185 = none ∧ decode 0xFFFF = none := by decide
theorem test_fields : family 0xD12F = 0xD ∧ fieldX 0xD12F = 1 ∧ fieldY 0xD12F = 2 ∧ fieldN 0xD12F = 0xF ∧
    fieldNN 0xD12F = 0x2F ∧ fieldNNN 0xD12F = 0x12F := by decide   -- T1
theorem test_bytes_big_endian : decodeBytes [0xD1, 0x23, 0x77] = .ok (.drw 1 2 3, [0x77]) := by rfl   -- R54
theorem test_bytes_truncated : decodeBytes [0xD1] = .error .truncated := by rfl
theorem test_table_word : decodeTableWord 16 0x8AB4 = some (.addReg 0xA 0xB) ∧ decodeTableWord 16 0xF175 = none := by decide
theorem test_encode_words : (Instr.drw 1 2 3).encode = 0xD123 ∧ (Instr.sub 0xA 0xB).encode = 0x8AB5 ∧
    (Instr.storeRegs 0xF).encode = 0xFF55 ∧ (Instr.jpV0 0x300).encodeBytes = [0xB3, 0x00] := by decide

/-! ## Control flow -/

theorem test_jp : after (step (start 0x1ABC)) (fun t => t.pc == 0x0ABC) = true := by decide   -- T4
theorem test_jp_odd : after (step (start 0x1201)) (fun t => t.pc == 0x0201) = true := by decide   -- T6
theorem test_call_wraps : after (execCall 0x300 { State.reset with pc := 0x0FFE })
    (fun t => t.stack == [0x1000] && t.pc == 0x0300) = true := by decide   -- T8
theorem test_call_full : after (step (withDepth (start 0x2300) 16)) (fun t =>
    t.sp == 16 && t.pc == 0x0200 && t.statusView == ⟨2, 2, 0x0200, 0x2300⟩) = true := by decide   -- T10
theorem test_ret : after (execRet { State.reset with stack := [0x0206, 0x1000] })
    (fun t => t.pc == 0x1000 && t.stack == [0x0206]) = true := by decide   -- T9, with an entry below
theorem test_ret_empty : after (step (start 0x00EE)) (fun t =>
    t.pc == 0x0200 && t.statusView == ⟨2, 3, 0x0200, 0x00EE⟩) = true := by decide   -- T11
theorem test_se_imm : after (step ((start 0x332A).setReg 3 0x2A)) (fun t => t.pc == 0x0204) = true ∧
    after (step ((start 0x332A).setReg 3 0x2B)) (fun t => t.pc == 0x0202) = true := by decide   -- T12, T13
theorem test_sne_imm : after (step ((start 0x432A).setReg 3 0x2A)) (fun t => t.pc == 0x0202) = true ∧
    after (step ((start 0x432A).setReg 3 0x2B)) (fun t => t.pc == 0x0204) = true := by decide   -- T14, T15
theorem test_se_reg : after (step (((start 0x5120).setReg 1 7).setReg 2 7)) (fun t => t.pc == 0x0204) = true ∧
    after (step (((start 0x5120).setReg 1 7).setReg 2 8)) (fun t => t.pc == 0x0202) = true := by decide   -- T16, T17
theorem test_sne_reg : after (step (((start 0x9120).setReg 1 7).setReg 2 8)) (fun t => t.pc == 0x0204) = true ∧
    after (step (start 0x9440)) (fun t => t.pc == 0x0202) = true := by decide   -- T19, T20
theorem test_jp_v0 : after (step ((start 0xBFFF).setReg 0 0xFF)) (fun t => t.pc == 0x10FE) = true := by decide   -- T22
theorem test_skip_wraps : after (execSeImm 0 0 { State.reset with pc := 0xFFFE }) (fun t => t.pc == 0x0002) = true := by
  decide   -- T23
theorem test_fetch_wraps : after (({ State.reset with pc := 0x0FFF }.writeByte 0xFFF 0x60).writeByte 0x000 0x55).cycle
    (fun t => t.reg 0 == 0x55 && t.pc == 0x1001) = true := by decide   -- T24

/-! ## Arithmetic and logic -/

theorem test_ld_imm : after (step (start 0x6A7F)) (fun t => t.reg 0xA == 0x7F && t.pc == 0x0202) = true := by decide   -- T26
theorem test_add_imm : after (step ((start 0x7002).setReg 0 0xFF)) (fun t => t.reg 0 == 0x01 && t.reg vF == 0) = true := by
  decide   -- T27
theorem test_ld_reg : after (step ((start 0x8120).setReg 2 0x33)) (fun t => t.reg 1 == 0x33) = true := by decide   -- T29
theorem test_or : after (step ((((start 0x8121).setReg 1 0xF0).setReg 2 0x0F).setReg vF 1))
    (fun t => t.reg 1 == 0xFF && t.reg vF == 1) = true := by decide   -- T30
theorem test_and : after (step ((((start 0x8122).setReg 1 0xF0).setReg 2 0x3C).setReg vF 1))
    (fun t => t.reg 1 == 0x30 && t.reg vF == 1) = true := by decide   -- T31
theorem test_xor : after (step ((((start 0x8123).setReg 1 0xF0).setReg 2 0x3C).setReg vF 1))
    (fun t => t.reg 1 == 0xCC && t.reg vF == 1) = true := by decide   -- T32
theorem test_add_carry : after (step (((start 0x8014).setReg 0 0xFF).setReg 1 0x01))
    (fun t => t.reg 0 == 0x00 && t.reg vF == 1) = true := by decide   -- S4
theorem test_add_into_vf : after (step (((start 0x8F14).setReg vF 0xFF).setReg 1 0x01)) (fun t => t.reg vF == 1) = true := by
  decide   -- T34
theorem test_sub_borrow : after (step (((start 0x8015).setReg 0 0x05).setReg 1 0x07))
    (fun t => t.reg 0 == 0xFE && t.reg vF == 0) = true := by decide   -- the table of R118
theorem test_sub_equal : after (step ((start 0x8335).setReg 3 0x42)) (fun t => t.reg 3 == 0 && t.reg vF == 1) = true := by
  decide   -- T41
theorem test_shr : after (step (((start 0x8236).setReg 2 0x05).setReg 3 0xFF))
    (fun t => t.reg 2 == 0x02 && t.reg 3 == 0xFF && t.reg vF == 1) = true := by decide   -- T43
theorem test_shr_vf : after (step ((start 0x8F06).setReg vF 0x02)) (fun t => t.reg vF == 0) = true := by decide   -- T45
theorem test_subn : after (step (((start 0x8017).setReg 0 0xFF).setReg 1 0x01))
    (fun t => t.reg 0 == 0x02 && t.reg vF == 0) = true := by decide   -- the table of R120
theorem test_shl : after (step ((start 0x820E).setReg 2 0x81)) (fun t => t.reg 2 == 0x02 && t.reg vF == 1) = true := by
  decide   -- the table of R121
theorem test_rnd : after (step { start 0xC30F with host := ⟨[], [.cycle], 0, [0xB7, 0x11], 0⟩ })
    (fun t => t.reg 3 == 0x07 && t.host.rndIn == [0x11]) = true := by decide   -- T48
theorem test_rnd_free_masked : after (step (start 0xC300)) (fun t => t.host.draws == 1) = true := by decide   -- T49

/-! ## Memory, index and block transfers -/

theorem test_ld_i : after (step { start 0xA000 with i := 0xFFFF }) (fun t => t.i == 0x0000) = true := by decide   -- T53
theorem test_add_i : after (step ({ start 0xF21E with i := 0xFFFF }.setReg 2 0xFF)) (fun t => t.i == 0x00FE) = true := by
  decide   -- T56
theorem test_add_i_no_flag : after (step ({ start 0xF21E with i := 0x0FFF }.setReg 2 0x01))
    (fun t => t.i == 0x1000 && t.reg vF == 0) = true := by decide   -- T55
theorem test_ld_f : after (step ((start 0xF129).setReg 1 0x1A)) (fun t => t.i == 0x0032) = true := by decide   -- T61
theorem test_ld_b : after (step ({ start 0xF033 with i := 0x0300 }.setReg 0 0x7B))
    (fun t => bytesAt t 0x300 3 == [1, 2, 3] && t.i == 0x0300) = true := by decide   -- S6
theorem test_ld_b_wraps : after (step ({ start 0xF033 with i := 0x0FFF }.setReg 0 0xEA))
    (fun t => bytesAt t 0xFFF 3 == [2, 3, 4]) = true := by decide   -- T66
theorem test_store_regs : after (step (((({ start 0xF355 with i := 0x0FFE }.setReg 0 0x0A).setReg 1 0x0B).setReg 2 0x0C).setReg
    3 0x0D)) (fun t => bytesAt t 0xFFE 4 == [0x0A, 0x0B, 0x0C, 0x0D] && t.i == 0x0FFE) = true := by decide   -- T70
theorem test_store_one : after (step ({ start 0xF055 with i := 0x0400 }.setReg 0 0xAA))
    (fun t => bytesAt t 0x400 2 == [0xAA, 0]) = true := by decide   -- T69
theorem test_load_regs : after (step (start 0xF465)) (fun t =>
    (t.v.toList.map (fun w => w.toNat)).take 6 == [0xF0, 0x90, 0x90, 0x90, 0xF0, 0]) = true := by decide   -- T74
theorem test_load_all : after (step { start 0xFF65 with i := 0x004B })
    (fun t => t.reg 4 == 0x80 && t.reg vF == 0x00 && t.i == 0x004B) = true := by decide   -- R131, the last glyph

/-! ## Display -/

theorem test_cls : after (step ({ start 0x00E0 with fb := FrameBuffer.clear.toggle 63 31 }.setReg vF 1))
    (fun t => litRows t == [] && t.reg vF == 1) = true := by decide   -- T75
theorem test_drw_wraps : after (step ((({ start 0xD012 with i := 0x0300 }.writeByte 0x300 0xC0).setReg 0 63).setReg 1 31))
    (fun t => litRows t == [(31, 2 ^ 63 + 1)] && t.reg vF == 0) = true := by decide   -- program P3, row 0
theorem test_drw_collides : after (step ({ start 0xD011 with i := 0x0300, fb := FrameBuffer.clear.toggle 0 0 }.writeByte
    0x300 0xC0)) (fun t => litRows t == [(0, 2)] && t.reg vF == 1) = true := by decide   -- T81

/-! ## Input -/

theorem test_skp : after (step ({ start 0xE59E with keys := 0x0400 }.setReg 5 0x1A)) (fun t => t.pc == 0x0204) = true ∧
    after (step ((start 0xE59E).setReg 5 0x0A)) (fun t => t.pc == 0x0202) = true := by decide   -- T91, T88
theorem test_sknp : after (step ({ start 0xE5A1 with keys := 0x0400 }.setReg 5 0x0A)) (fun t => t.pc == 0x0202) = true ∧
    after (step (start 0xE5A1)) (fun t => t.pc == 0x0204) = true := by decide   -- T90, T92
theorem test_wait_begins : after (execLdVxK 3 { State.reset with pc := 0x0208 })
    (fun t => t == waiting 3) = true := by decide   -- T93
theorem test_wait_ends : (waiting 0xF).setKey 9 true =
    { State.reset with pc := 0x020A, waitReg := 0xF, keys := 0x0200, v := State.reset.v.set 15 9 } := by decide   -- T101
theorem test_held_key_does_not_end_it : { waiting 3 with keys := 0x0010 }.setKey 4 true = { waiting 3 with keys := 0x0010 } := by
  decide   -- T98
theorem test_release_does_not_end_it : { waiting 3 with keys := 0x0010 }.setKey 4 false = waiting 3 := by decide   -- T97
theorem test_key_while_running : State.reset.setKey 3 true = { State.reset with keys := 0x0008 } := by decide   -- T100

/-! ## Timers -/

theorem test_ld_vx_dt : after (step { start 0xF407 with dt := 0x1E }) (fun t => t.reg 4 == 0x1E && t.dt == 0x1E) = true := by
  decide   -- T102
theorem test_ld_dt_vx : after (step ((start 0xF215).setReg 2 0x03)) (fun t => t.dt == 0x03) = true := by decide   -- T103
theorem test_ld_st_vx : after (step ((start 0xF218).setReg 2 0x3C)) (fun t => t.audioView == (0x3C, true)) = true := by
  decide   -- T104
theorem test_tick : { State.reset with dt := 0, st := 5 }.tick = { State.reset with dt := 0, st := 4 } ∧
    { State.reset with dt := 0xFF, st := 0xFF }.tick = { State.reset with dt := 0xFE, st := 0xFE } := by decide   -- T106, T107
theorem test_tick_while_stopped : { stopped with dt := 3 }.tick = { stopped with dt := 2 } := by decide   -- T109

/-! ## Events, fatal errors and the step -/

theorem test_unknown : after (step (start 0xFFFF)) (fun t => t == (start 0xFFFF).raise .unknownOpcode 0x0200 0xFFFF) = true := by
  decide   -- S8
theorem test_load_small : bytesAt (State.reset.load [0x12, 0x00]) 0x1FF 4 = [0, 0x12, 0, 0] := by decide   -- R155
theorem test_load_none : State.reset.load [] = State.reset := by decide   -- T113
theorem test_load_too_large : State.reset.load (List.replicate 3585 0) = State.reset.raise .programTooLarge 0 0 := by
  rw [State.load]; exact if_pos (by rw [List.length_replicate]; decide)   -- T112
theorem test_load_stopped : stopped.load [1] = stopped := by decide   -- T117
theorem test_reset_memory : bytesAt stopped.resetEvent 0x000 5 = [0xF0, 0x90, 0x90, 0x90, 0xF0] ∧
    bytesAt stopped.resetEvent 0x04B 6 = [0xF0, 0x80, 0xF0, 0x80, 0x80, 0] := by decide   -- T115
theorem test_reset_leaves_halted : stopped.resetEvent = State.reset := by decide   -- T115
theorem test_write_background_removes_entry : (State.reset.writeByte 0x300 7).writeByte 0x1300 0 = State.reset := by
  decide   -- log 10
theorem test_step_takes_the_event : after (step { start 0x6A7F with dt := 9, host := ⟨[.tick], [], 0, [], 0⟩ })
    (fun t => t.dt == 8 && t.pc == 0x0200 && t.host.schedule == []) = true := by decide   -- R152
theorem test_ticks_for_ever : after (core.run 5 endlessTicks)
    (fun t => t.dt == 0 && t.host == endlessTicks.host && t.pc == 0x0200) = true := by decide   -- R149, R197
theorem test_loop_repeats : after (core.run 5 { start 0x1200 with dt := 9, host := ⟨[], [.cycle, .tick], 0, [], 0⟩ })
    (fun t => t.dt == 7 && t.host.schedule == [.tick]) = true := by decide   -- R152: two Ticks among five events
theorem test_fetch_word_placed : (start 0xD123).fetchWord = 0xD123 ∧ Memory.wf (start 0xD123).params (start 0xD123).mem := by
  decide
theorem test_display_view : { State.reset with fb := FrameBuffer.clear.toggle 5 2 }.displayView =
    BitVec.ofNat 2048 (2 ^ 133) := by rfl   -- R159: bit 2 * 64 + 5

/-! ## Witnesses: the hypotheses of the statements can be met -/

theorem witness_DecodeOfEncodeGivesInstructionBack : (Instr.shr 0xF 0xF).wf = true ∧ (Instr.jp 0xFFF).wf = true := by decide
theorem witness_EncodeOfDecodeGivesWordBack : decode 0x8AB6 = some (.shr 0xA 0xB) := by decide
theorem witness_WordDecodesByTheRowItSelects_none : ∀ r ∈ opcodeRows, (0x00E1 : Word) &&& r.mask ≠ r.bits := by decide
theorem witness_WordDecodesByTheRowItSelects_some :
    (⟨0x8004, 0xF00F⟩ : OpcodeRow) ∈ opcodeRows ∧ (0x8FF4 : Word) &&& 0xF00F = 0x8004 := by decide
theorem witness_UnknownOpcodesAreTheListedWords : (0x1#4).toNat ∈ [0x1, 0x2, 0x3, 0x4, 0x6, 0x7, 0xA, 0xB, 0xC, 0xD] ∧
    (0xD#4).toNat ∈ [0x1, 0x2, 0x3, 0x4, 0x6, 0x7, 0xA, 0xB, 0xC, 0xD] := by decide
theorem witness_StepRunsDecodedInstruction : (start 0xD123).nextEvent = .cycle ∧ (start 0xD123).runState = .running ∧
    decode (start 0xD123).fetchWord = some (.drw 1 2 3) := by decide
theorem witness_UnknownWordHaltsAndChangesNothingElse : (start 0xFFFF).runState = .running ∧
    decode (start 0xFFFF).fetchWord = none := by decide
theorem witness_CycleDoesNothingUnlessRunning : (waiting 3).runState ≠ .running ∧ stopped.runState ≠ .running := by decide
theorem witness_EveryInstructionCompletesAndOnlyCallAndRetFail : State.reset.runState = .running := by decide
theorem witness_CallPushesReturnAddressAndJumps : (withDepth State.reset 15).sp ≠ State.reset.params.stackDepth ∧
    (withDepth State.reset 16).sp = State.reset.params.stackDepth := by decide
theorem witness_ReturnPopsNewestAddress : (withDepth State.reset 1).stack = [] ++ [0x0206] ∧ State.reset.stack = [] := by decide
theorem witness_CallThenReturnRestoresAllButPc :
    (withDepth State.reset 15).sp ≠ (withDepth State.reset 15).params.stackDepth := by decide
theorem witness_StackErrorsLatchAddressAndWord :
    (withDepth State.reset 16).sp = (withDepth State.reset 16).params.stackDepth ∧ State.reset.sp = 0 := by decide
theorem witness_SkipsMovePcByFourOrTwo : (0xF#4 : Nibble) ≠ 0x0#4 := by decide
theorem witness_RandomMasksTheRandomInput : (0x0 : Reg) ≠ 0x3 ∧
    ({ State.reset with host := ⟨[], [], 0, [0xB7], 0⟩ } : State).host.rndIn = 0xB7 :: [] ∧ State.reset.host.rndIn = [] := by decide
theorem witness_DecimalStoreWritesThreeDigits : ∀ k < 3, 0x002 % 4096 ≠ { State.reset with i := 0x0FFF }.indexed k % 4096 := by
  decide
theorem witness_BlockStoreWritesRegistersInOrder : ((0xF : Reg).toNat ≤ (0xF : Reg).toNat) ∧
    ∀ k ≤ (0xF : Reg).toNat, 0x510 % 4096 ≠ { State.reset with i := 0x0500 }.indexed k % 4096 := by decide
theorem witness_OnlyStoringInstructionsChangeMemory :
    after (exec (.ldB 0) { State.reset with i := 0x0300 }) (fun _ => true) = true ∧
    0x303 % 4096 ∉ storedAddresses (.ldB 0) { State.reset with i := 0x0300 } := by decide
theorem witness_ReservedRegionSurvivesObedientPrograms :
    (∀ a ∈ storedAddresses (.storeRegs 1) { State.reset with i := 0x0200 }, Config.programBase ≤ a) ∧
    after (exec (.storeRegs 1) { State.reset with i := 0x0200 }) (fun _ => true) = true := by decide
theorem witness_DrawTogglesCoveredPixels_collision :
    ∃ X Y, spriteCovers { State.reset with fb := FrameBuffer.clear.toggle 0 0 } 0 0 1 X Y ∧
      ({ State.reset with fb := FrameBuffer.clear.toggle 0 0 } : State).fb.pixel X Y = true :=
  ⟨0, 0, ⟨0, by decide, 0, by decide, by decide, by decide, by decide⟩, by decide⟩
theorem witness_DrawTogglesCoveredPixels_none :
    ∀ X Y, spriteCovers State.reset 0 0 5 X Y → State.reset.fb.pixel X Y = false := fun X Y _ => FrameBuffer.pixel_clear X Y
theorem witness_DrawTogglesCoveredPixels_register : (0xE : Reg) ≠ 0xF#4 := by decide

/-- The state after one drawing of the glyph 0 at the top left. -/
def drawnOnce : State := { State.reset with pc := 0x0202, fb := (State.reset.drawRows (State.reset.fb, false) 0 0 5).1 }

theorem witness_DrawingTwiceRestoresTheFrameBuffer : exec (.drw 0 1 5) State.reset = .next drawnOnce ∧
    drawnOnce.reg 0 = State.reset.reg 0 ∧ drawnOnce.reg 1 = State.reset.reg 1 ∧
    after (exec (.drw 0 1 5) drawnOnce) (fun _ => true) = true := ⟨rfl, by decide, by decide, by decide⟩
theorem witness_SetKeyWritesKeyAndCompletesWait : ((waiting 3).runState = .awaitingKey ∧ true = true ∧ (waiting 3).key 0xF = false) ∧
    ¬ (State.reset.runState = .awaitingKey ∧ true = true ∧ State.reset.key 0xF = false) ∧
    false = State.reset.key 0xF := by decide
theorem witness_KeyWaitEndsWithTheKeysCode : State.reset.runState = .running ∧ State.reset.key 0xF = false := by decide
theorem witness_WaitRegisterIsInvisibleOutsideAWait : (start 0xFF0A).runState ≠ .awaitingKey ∧
    (start 0xFF0A).deliver .cycle = .next { start 0xFF0A with runState := .awaitingKey, waitReg := 0xF } := ⟨by decide, rfl⟩
theorem witness_TickIsInvisibleToOtherInstructions :
    (∀ x, Instr.cls ≠ .ldVxDt x ∧ Instr.cls ≠ .ldDtVx x ∧ Instr.cls ≠ .ldStVx x) ∧
    after (exec .cls State.reset) (fun _ => true) = true := ⟨by simp, by decide⟩
theorem witness_LoadCopiesFittingProgramOrHalts : State.reset.runState = .running ∧
    0x200 + (List.replicate 3584 (0 : Byte)).length ≤ 4096 ∧ 4096 < 0x200 + (List.replicate 3585 (0 : Byte)).length ∧
    (waiting 3).runState ≠ .running := by
  rw [List.length_replicate, List.length_replicate]; decide
theorem witness_RunStateFollowsTheTransitionTable : State.reset.runState = .running ∧ (waiting 3).runState = .awaitingKey ∧
    stopped.runState = .halted ∧ (Event.tick = .tick ∨ ∃ k p, Event.tick = .setKey k p) ∧ Event.cycle ≠ .reset :=
  ⟨rfl, rfl, rfl, .inl rfl, by decide⟩
theorem witness_HaltedIsLeftByResetAlone : stopped.runState = .halted ∧ Event.cycle ≠ .reset := by decide
theorem witness_FatalErrorsArePrecise_cycle : State.reset.safe ∧
    State.reset.deliver .cycle = .next (State.reset.raise .unknownOpcode 0x0200 0x0000) ∧
    ¬ (State.reset.raise .unknownOpcode 0x0200 0x0000).safe :=
  ⟨by unfold State.safe; decide, by rfl, by unfold State.safe; decide⟩
theorem witness_FatalErrorsArePrecise_load :
    State.reset.deliver (.load (List.replicate 3585 0)) = .next (State.reset.raise .programTooLarge 0 0) ∧
    ¬ (State.reset.raise .programTooLarge 0 0).safe ∧ Event.load (List.replicate 3585 0) ≠ .cycle :=
  ⟨congrArg Host.Outcome.next test_load_too_large, by unfold State.safe; decide, nofun⟩
theorem witness_OnlyDestinationsAndFlagChangeRegisters : after (exec (.addReg 1 2) State.reset) (fun _ => true) = true ∧
    (Instr.addReg 1 2).names 3 = false ∧ (Instr.addReg 1 2).writesFlag = true ∧ (Instr.cls).names vF = false ∧
    (Instr.cls).writesFlag = false := by decide
theorem witness_OnlyListedWritersChangeOtherState :
    after (exec (.ldI 1) State.reset) (fun t => t.i != State.reset.i) = true ∧
    after (exec (.call 0x300) State.reset) (fun t => t.stack != State.reset.stack) = true ∧
    after (exec (.ldDtVx 1) (State.reset.setReg 1 1)) (fun t => t.dt != State.reset.dt) = true ∧
    after (exec (.ldStVx 1) (State.reset.setReg 1 1)) (fun t => t.st != State.reset.st) = true ∧
    after (exec (.drw 0 0 5) State.reset) (fun t => t.fb != State.reset.fb) = true ∧
    after (exec (.ldVxK 1) State.reset) (fun t => t.waitReg != State.reset.waitReg) = true ∧
    after (exec .ret State.reset) (fun t => t.errKind != State.reset.errKind) = true ∧
    after (exec (.rnd 1 1) State.reset) (fun t => t.host != State.reset.host) = true := by decide
theorem witness_OtherInstructionsAdvancePcByTwo : after (exec .cls State.reset) (fun _ => true) = true ∧
    (∀ nnn, Instr.cls ≠ .jp nnn ∧ Instr.cls ≠ .call nnn ∧ Instr.cls ≠ .jpV0 nnn) ∧ Instr.cls ≠ .ret ∧
    (∀ x y nn, Instr.cls ≠ .seImm x nn ∧ Instr.cls ≠ .sneImm x nn ∧ Instr.cls ≠ .seReg x y ∧ Instr.cls ≠ .sneReg x y) ∧
    (∀ x, Instr.cls ≠ .skp x ∧ Instr.cls ≠ .sknp x ∧ Instr.cls ≠ .ldVxK x) :=
  ⟨by decide, by simp, by simp, by simp, by simp⟩
theorem witness_EveryStepKeepsTheInvariant : (start 0xF033).Inv ∧ after (step (start 0xF033)) (fun _ => true) = true :=
  ⟨⟨by decide, by decide, by decide, by decide, by decide⟩, by decide⟩
theorem witness_StepCarriesOutTheNextEvent : (State.reset.host.schedule = [] ∧ State.reset.host.loop = []) ∧
    (endlessTicks.host.schedule = [] ∧ endlessTicks.host.loop = .tick :: []) ∧
    (State.reset.withSchedule [.tick, .cycle]).host.schedule = .tick :: [.cycle] := by decide
theorem witness_EveryOrderOfEventsIsARun : ([.tick] : List Event) ≠ [] ∧ endlessTicks.host.schedule = [] ∧
    endlessTicks.host.loop = [.tick] := by decide
theorem witness_SelfJumpIsTerminal : (start 0x1200).atEnd := ⟨by decide, 0x200, by decide, by decide⟩

end Sys2Proof.Tests
end

section
/-! SUPPORT. What one instruction can do, said once: an equation for each outcome of CALL, RET, Cycle and Load, and
`Effect`, the forms the state after an instruction can have (spec/10_state.md R35). The rules about all instructions
below are case splits over `Effect`. -/

namespace Sys2Proof

/-- The register in which an instruction leaves a computed result, the block load and the flag not counted (R35). -/
def Instr.destination : Instr → Option Reg
  | .ldImm x _ | .addImm x _ | .ldReg x _ | .orReg x _ | .andReg x _ | .xorReg x _ | .rnd x _ | .ldVxDt x => some x
  | .addReg x _ | .sub x _ | .shr x _ | .subn x _ | .shl x _ => some x
  | _ => none

theorem Instr.names_of_destination {i : Instr} {x : Reg} (h : i.destination = some x) (r : Reg) :
    i.names r = decide (r = x) := by
  cases i <;> cases h <;> rfl

end Sys2Proof

namespace Sys2Proof.Machine

/-! ## Shared operations -/

/-- A draw uses the random input alone (log 1). -/
theorem State.useRnd_host (s : State) : s.useRnd.host =
    { s.host with rndIn := s.useRnd.host.rndIn, draws := s.useRnd.host.draws } := by
  unfold State.useRnd
  split <;> rfl

@[simp] theorem State.storeUpTo_params (s : State) (n : Nat) : (s.storeUpTo n).params = s.params := by
  rw [State.storeUpTo_eq]

@[simp] theorem State.writeBytes_runState (s : State) (a : Nat) (bs : List Byte) :
    (s.writeBytes a bs).runState = s.runState := by
  rw [State.writeBytes_eq]

section
variable {s : State}

/-! ## CALL and RET -/

theorem exec_call_of_full {nnn : Addr} (h : s.sp = s.params.stackDepth) :
    exec (.call nnn) s = .next (s.raise .stackOverflow s.pc (Instr.call nnn).encode) := if_pos h

theorem exec_call_of_room {nnn : Addr} (h : s.sp ≠ s.params.stackDepth) :
    exec (.call nnn) s = .next { s with pc := zextAddr nnn, stack := s.stack ++ [s.pc + 2] } := if_neg h

theorem exec_ret_of_empty (h : s.stack = []) :
    exec .ret s = .next (s.raise .stackUnderflow s.pc Instr.ret.encode) := by
  change execRet s = _
  rw [execRet, State.pop_empty s.advance h]

theorem exec_ret_of_append {ws : List Word} {w : Word} (h : s.stack = ws ++ [w]) :
    exec .ret s = .next { s with pc := w, stack := ws } := by
  change execRet s = _
  rw [execRet, State.pop_append s.advance h]
  rfl

/-! ## Cycle and Load, case by case -/

theorem State.cycle_of_decode {i : Instr} (hr : s.runState = .running) (hd : decode s.fetchWord = some i) :
    s.cycle = exec i s := by
  simp [State.cycle, hr, hd]

theorem State.cycle_of_unknown (hr : s.runState = .running) (hd : decode s.fetchWord = none) :
    s.cycle = .next (s.raise .unknownOpcode s.pc s.fetchWord) := by
  simp [State.cycle, hr, hd]

theorem State.cycle_of_not_running (hr : s.runState ≠ .running) : s.cycle = .next s := by
  rcases s.cycle_cases with ⟨-, h, -⟩ | ⟨h, -⟩ | ⟨-, he⟩
  · exact absurd h hr
  · exact absurd h hr
  · exact he

theorem State.load_of_fits {bytes : List Byte} (hr : s.runState = .running)
    (fits : Config.programBase + bytes.length ≤ Config.memSize) :
    s.load bytes = s.writeBytes Config.programBase bytes := by
  simp [State.load, hr, Nat.not_lt.2 fits]

theorem State.load_of_large {bytes : List Byte} (hr : s.runState = .running)
    (large : Config.memSize < Config.programBase + bytes.length) : s.load bytes = s.raise .programTooLarge 0 0 := by
  simp [State.load, hr, large]

theorem State.load_of_not_running (hr : s.runState ≠ .running) (bytes : List Byte) : s.load bytes = s := by
  rcases s.load_cases bytes with ⟨h, -⟩ | ⟨h, -⟩ | ⟨-, he⟩
  · exact absurd h hr
  · exact absurd h hr
  · exact he

end

/-! ## All instructions -/

/-- `Effect s i t`: `t` is of a form the state after instruction `i` in `s` can have. A form says which items are
written and gives the guard of each stack operation. -/
inductive Effect (s : State) : Instr → State → Prop
  /-- A jump or a skip. -/
  | pcOnly {i : Instr} (target : Word) : Effect s i { s with pc := target }
  /-- A computed result, no flag. -/
  | result {i : Instr} {x : Reg} (hx : i.destination = some x) (w : Byte) : Effect s i (s.advance.setReg x w)
  /-- A computed result and then the flag (R110). -/
  | flagged {i : Instr} {x : Reg} (hx : i.destination = some x) (hf : i.writesFlag = true) (w : Byte) (f : Bool) :
    Effect s i (s.advance.setRegAndFlag x w f)
  /-- RND, with the random input as the draw leaves it (log 1). -/
  | random (x : Reg) (nn w : Byte) (rs : List Byte) (d : Nat) :
    Effect s (.rnd x nn) ({ s.advance with host := { s.host with rndIn := rs, draws := d } }.setReg x w)
  /-- The block load (R131). -/
  | block (x : Reg) : Effect s (.loadRegs x) { s.advance with v := (s.advance.loadUpTo (x.toNat + 1)).v }
  | clear : Effect s .cls { s.advance with fb := FrameBuffer.clear }
  | draw (x y : Reg) (n : Nibble) (fb : FrameBuffer) (hit : Bool) :
    Effect s (.drw x y n) ({ s.advance with fb := fb }.setReg vF (flagByte hit))
  | index {i : Instr} (hi : (∃ nnn, i = .ldI nnn) ∨ ∃ x, i = .addI x ∨ i = .ldF x) (w : Word) :
    Effect s i (s.advance.setI w)
  /-- The decimal store and the block store (R128, R130). -/
  | store {i : Instr} (m : Memory) (hm : Memory.wf s.params s.mem → Memory.wf s.params m) :
    Effect s i { s.advance with mem := m }
  | setDt (x : Reg) (w : Byte) : Effect s (.ldDtVx x) (s.advance.setDt w)
  | setSt (x : Reg) (w : Byte) : Effect s (.ldStVx x) (s.advance.setSt w)
  | wait (x : Reg) : Effect s (.ldVxK x) { s with waitReg := x, runState := .awaitingKey }
  | push (nnn : Addr) (room : s.sp ≠ s.params.stackDepth) :
    Effect s (.call nnn) { s with pc := zextAddr nnn, stack := s.stack ++ [s.pc + 2] }
  | overflow (nnn : Addr) (full : s.sp = s.params.stackDepth) :
    Effect s (.call nnn) (s.raise .stackOverflow s.pc (Instr.call nnn).encode)
  | pop {ws : List Word} {w : Word} (newest : s.stack = ws ++ [w]) : Effect s .ret { s with pc := w, stack := ws }
  | underflow (empty : s.stack = []) : Effect s .ret (s.raise .stackUnderflow s.pc Instr.ret.encode)

variable {i : Instr} {s t : State}

theorem Effect.skip (c : Bool) : Effect s i (s.advance.skipIf c) := by
  rw [State.advance_skipIf]
  exact .pcOnly _

theorem Effect.rnd (x : Reg) (nn w : Byte) : Effect s (.rnd x nn) (s.advance.useRnd.setReg x w) := by
  rw [State.useRnd_eq, State.useRnd_host]
  exact .random x nn w _ _

theorem Effect.loadRegs (x : Reg) : Effect s (.loadRegs x) (s.advance.loadUpTo (x.toNat + 1)) := by
  rw [State.loadUpTo_eq]
  exact .block x

theorem Effect.storeUpTo (n : Nat) : Effect s i (s.advance.storeUpTo n) := by
  rw [State.storeUpTo_eq]
  exact .store _ fun h => State.storeUpTo_params s.advance n ▸ State.wf_storeUpTo s.advance n h

/-- Every instruction completes, with one of the effects. -/
theorem exec_effect (i : Instr) (s : State) : ∃ t, exec i s = .next t ∧ Effect s i t := by
  cases i
  case call nnn =>
    by_cases full : s.sp = s.params.stackDepth
    · exact ⟨_, exec_call_of_full full, .overflow nnn full⟩
    · exact ⟨_, exec_call_of_room full, .push nnn full⟩
  case ret =>
    rcases stack_cases s.stack with empty | ⟨ws, w, newest⟩
    · exact ⟨_, exec_ret_of_empty empty, .underflow empty⟩
    · exact ⟨_, exec_ret_of_append newest, .pop newest⟩
  case jp | jpV0 => exact ⟨_, rfl, .pcOnly _⟩
  case seImm | sneImm | seReg | sneReg | skp | sknp => exact ⟨_, rfl, .skip _⟩
  case ldImm | addImm | ldReg | orReg | andReg | xorReg | ldVxDt => exact ⟨_, rfl, .result rfl _⟩
  case addReg | sub | shr | subn | shl => exact ⟨_, rfl, .flagged rfl rfl _ _⟩
  case rnd x nn => exact ⟨_, rfl, .rnd x nn _⟩
  case cls => exact ⟨_, rfl, .clear⟩
  case drw x y n => exact ⟨_, rfl, .draw x y n _ _⟩
  case ldI nnn => exact ⟨_, rfl, .index (.inl ⟨nnn, rfl⟩) _⟩
  case addI x => exact ⟨_, rfl, .index (.inr ⟨x, .inl rfl⟩) _⟩
  case ldF x => exact ⟨_, rfl, .index (.inr ⟨x, .inr rfl⟩) _⟩
  case ldB x =>
    exact ⟨_, rfl, .store _ fun h =>
      State.wf_writeByte _ _ _ (State.wf_writeByte _ _ _ (State.wf_writeByte s.advance _ _ h))⟩
  case storeRegs x => exact ⟨_, rfl, .storeUpTo _⟩
  case loadRegs x => exact ⟨_, rfl, .loadRegs x⟩
  case ldDtVx x => exact ⟨_, rfl, .setDt x _⟩
  case ldStVx x => exact ⟨_, rfl, .setSt x _⟩
  case ldVxK x => exact ⟨_, rfl, .wait x⟩

theorem effect_of_exec (h : exec i s = .next t) : Effect s i t := by
  obtain ⟨u, hu, effect⟩ := exec_effect i s
  cases hu.symm.trans h
  exact effect

end Sys2Proof.Machine
end

section
/-! PROOF. The invariant (spec/10_state.md R25, R32; O55, O56). -/

namespace Sys2Proof.Machine

variable {i : Instr} {s t : State}

/-- The invariant looks at memory, the stack, the run state, the latch and the parameters alone. -/
theorem State.Inv.frame {v i pc dt st fb keys waitReg host} (h : s.Inv) :
    State.Inv { s with v := v, i := i, pc := pc, dt := dt, st := st, fb := fb, keys := keys, waitReg := waitReg,
                       host := host } :=
  ⟨h.memory, h.stack, h.latch, h.clear, h.params⟩

/-- Going from one run state other than Halted to another keeps the invariant. -/
theorem State.Inv.withRunState {r : RunState} (h : s.Inv) (hs : s.runState ≠ .halted) (hr : r ≠ .halted) :
    State.Inv { s with runState := r } :=
  ⟨h.memory, h.stack, iff_of_true (h.latch.2 hs) hr, h.clear, h.params⟩

theorem State.Inv.raise {k : ErrKind} (h : s.Inv) (hk : k ≠ .none) (a b : Word) : (s.raise k a b).Inv :=
  ⟨h.memory, h.stack, iff_of_false hk (not_not_intro rfl), fun e => absurd e hk, h.params⟩

theorem State.inv_resetWith {p : Config.Params} (hp : p.wf = true) (host : HostSide) :
    (State.resetWith p host).Inv where
  memory := Memory.wf_nil p
  stack := Nat.zero_le _
  latch := iff_of_true rfl (by simp [State.resetWith])
  clear _ := ⟨rfl, rfl⟩
  params := hp

theorem Effect.inv (h : s.Inv) (hr : s.runState = .running) (effect : Effect s i t) : t.Inv := by
  have alive : s.runState ≠ .halted := by simp [hr]
  cases effect with
  | store m hm => exact ⟨hm h.memory, h.stack, h.latch, h.clear, h.params⟩
  | wait x => exact (h.withRunState (r := .awaitingKey) alive (by decide)).frame
  | push nnn room =>
    have hlt : s.sp < s.params.stackDepth := lt_of_le_of_ne h.stack room
    exact ⟨h.memory, by simpa [State.sp] using hlt, h.latch, h.clear, h.params⟩
  | @pop ws w newest =>
    have hle : ws.length + 1 ≤ s.params.stackDepth := by simpa [State.sp, newest] using h.stack
    exact ⟨h.memory, by simpa [State.sp] using Nat.le_of_succ_le hle, h.latch, h.clear, h.params⟩
  | overflow | underflow => exact h.raise (by decide) _ _
  | _ => exact h.frame

theorem State.Inv.load (h : s.Inv) (bytes : List Byte) : (s.load bytes).Inv := by
  rcases s.load_cases bytes with ⟨-, -, he⟩ | ⟨-, -, he⟩ | ⟨-, he⟩ <;> rw [he]
  · have hm := State.wf_writeBytes bytes s Config.programBase h.memory
    rw [State.writeBytes_eq] at hm ⊢
    exact ⟨hm, h.stack, h.latch, h.clear, h.params⟩
  · exact h.raise (by decide) _ _
  · exact h

theorem State.Inv.setKey (h : s.Inv) (k : Nibble) (pressed : Bool) : (s.setKey k pressed).Inv := by
  by_cases hc : s.runState = .awaitingKey ∧ pressed = true ∧ s.key k = false
  · obtain ⟨hw, rfl, hk⟩ := hc
    rw [State.setKey_completes hw hk]
    exact (h.withRunState (by simp [hw]) (by decide)).frame
  · rw [State.setKey_plain hc]
    exact h.frame

theorem State.Inv.cycle (h : s.Inv) (ht : s.cycle = .next t) : t.Inv := by
  rcases s.cycle_cases with ⟨i, hr, -, he⟩ | ⟨-, -, he⟩ | ⟨-, he⟩ <;> rw [he] at ht
  · exact (effect_of_exec ht).inv h hr
  · cases ht
    exact h.raise (by decide) _ _
  · cases ht
    exact h

theorem State.Inv.deliver {e : Event} (h : s.Inv) (ht : s.deliver e = .next t) : t.Inv := by
  cases e with
  | cycle => exact h.cycle ht
  | reset => cases ht; exact State.inv_resetWith h.params _
  | load bytes => cases ht; exact h.load bytes
  | tick => cases ht; exact h.frame
  | setKey k pressed => cases ht; exact h.setKey k pressed

theorem State.Inv.takeEvent (h : s.Inv) : s.takeEvent.Inv := by
  rw [State.takeEvent_eq]
  exact h.frame

/-- Settles O56: taking the event off keeps the invariant, and so does delivering it. -/
theorem everyStepKeepsTheInvariant : Obligations.EveryStepKeepsTheInvariant :=
  fun _ _ h ht => h.takeEvent.deliver ht

/-- Settles O55: the default parameters are legal. -/
theorem resetStateMeetsInvariant : Obligations.ResetStateMeetsInvariant := State.inv_resetWith (by decide) _

end Sys2Proof.Machine
end

section
/-! PROOF. Which instructions change which piece of state (spec/10_state.md R22, R35; O52, O53). -/

namespace Sys2Proof.Machine

variable {i : Instr} {s t : State}

/-- Only a named destination, or VF under a flag writer, can hold another value afterwards. -/
theorem Effect.reg_eq {r : Reg} (effect : Effect s i t) (hn : i.names r = false)
    (hf : r = vF → i.writesFlag = false) : t.reg r = s.reg r := by
  have other : ∀ {x}, i.destination = some x → r ≠ x := fun hx => by
    simpa [Instr.names_of_destination hx] using hn
  cases effect with
  | result hx w =>
    rw [State.reg_setReg, if_neg (other hx)]
    rfl
  | flagged hx hw w f =>
    rw [State.reg_setRegAndFlag, if_neg fun e => by simp [hf e] at hw, if_neg (other hx)]
    rfl
  | random x nn w rs d =>
    rw [State.reg_setReg, if_neg (other rfl)]
    rfl
  | block x =>
    have above : ¬ r.toNat < x.toNat + 1 := by simpa [Instr.names, Nat.lt_succ_iff] using hn
    exact (State.reg_loadUpTo s.advance _ (by omega) r).trans (if_neg above)
  | draw x y n fb hit =>
    rw [State.reg_setReg, if_neg fun e => by cases hf e]
    rfl
  | _ => rfl

/-- A flag writer writes VF last (R110). -/
theorem exec_writes_flag (hf : i.writesFlag = true) (s : State) :
    ∃ u f, exec i s = .next (State.setReg u vF (flagByte f)) := by
  cases i <;> cases hf <;> exact ⟨_, _, rfl⟩

/-- Settles O52, by the effects for the registers left alone, and by VF's write coming last for the flag. -/
theorem onlyDestinationsAndFlagChangeRegisters : Obligations.OnlyDestinationsAndFlagChangeRegisters := by
  intro i s t h
  refine ⟨fun r hn hf => (effect_of_exec h).reg_eq hn hf, fun hf => ?_⟩
  obtain ⟨u, f, he⟩ := exec_writes_flag hf s
  cases he.symm.trans h
  rw [State.reg_setReg, if_pos rfl]
  cases f
  · exact .inl rfl
  · exact .inr rfl

/-- Settles O53: an effect changes only the items its instruction is listed as a writer of. -/
theorem onlyListedWritersChangeOtherState : Obligations.OnlyListedWritersChangeOtherState := by
  intro i s t h
  cases effect_of_exec h with
  | index hi w => simp [hi]
  | flagged hx hf w f =>
    rw [State.setRegAndFlag_eq]
    simp
  | _ => simp

end Sys2Proof.Machine
end

section
/-! PROOF. `run_state` (spec/10_state.md R30; O48). -/

namespace Sys2Proof.Machine

variable {i : Instr} {s t : State}

/-- LD Vx,K alone makes a running core wait (R142). -/
theorem exec_waits_iff (hr : s.runState = .running) (h : exec i s = .next t) :
    t.runState = .awaitingKey ↔ ∃ x, i = .ldVxK x := by
  constructor
  · intro ht
    cases effect_of_exec h with
    | wait x => exact ⟨x, rfl⟩
    | overflow | underflow => cases ht
    | _ => cases hr.symm.trans ht
  · rintro ⟨x, rfl⟩
    cases h
    rfl

/-- CALL on a full stack and RET on an empty one alone halt a running core (R172, R173). -/
theorem exec_halts_iff (hr : s.runState = .running) (h : exec i s = .next t) :
    t.runState = .halted ↔
      ((∃ nnn, i = .call nnn) ∧ s.sp = s.params.stackDepth) ∨ (i = .ret ∧ s.sp = 0) := by
  constructor
  · intro ht
    cases effect_of_exec h with
    | wait x => cases ht
    | overflow nnn full => exact .inl ⟨⟨nnn, rfl⟩, full⟩
    | underflow empty => exact .inr ⟨rfl, List.length_eq_zero_iff.2 empty⟩
    | _ => cases hr.symm.trans ht
  · rintro (⟨⟨nnn, rfl⟩, full⟩ | ⟨rfl, empty⟩)
    · cases (exec_call_of_full full).symm.trans h
      rfl
    · cases (exec_ret_of_empty (List.length_eq_zero_iff.1 empty)).symm.trans h
      rfl

theorem State.cycle_waits_iff (hr : s.runState = .running) (h : s.cycle = .next t) :
    t.runState = .awaitingKey ↔ ∃ x, decode s.fetchWord = some (.ldVxK x) := by
  rcases s.cycle_cases with ⟨i, -, hd, he⟩ | ⟨-, hd, he⟩ | ⟨hn, -⟩
  · simp [hd, exec_waits_iff hr (he.symm.trans h)]
  · cases he.symm.trans h
    simp [hd]
  · exact absurd hr hn

theorem State.cycle_halts_iff (hr : s.runState = .running) (h : s.cycle = .next t) :
    t.runState = .halted ↔ decode s.fetchWord = none ∨
      ((∃ nnn, decode s.fetchWord = some (.call nnn)) ∧ s.sp = s.params.stackDepth) ∨
      (decode s.fetchWord = some .ret ∧ s.sp = 0) := by
  rcases s.cycle_cases with ⟨i, -, hd, he⟩ | ⟨-, hd, he⟩ | ⟨hn, -⟩
  · simp [hd, exec_halts_iff hr (he.symm.trans h)]
  · cases he.symm.trans h
    simp [hd]
  · exact absurd hr hn

theorem State.load_runState (hr : s.runState = .running) (bytes : List Byte) :
    (s.load bytes).runState = if Config.memSize < Config.programBase + bytes.length then .halted else .running := by
  rcases s.load_cases bytes with ⟨-, fits, he⟩ | ⟨-, large, he⟩ | ⟨hn, -⟩
  · rw [he, if_neg (Nat.not_lt.2 fits), State.writeBytes_runState, hr]
  · rw [he, if_pos large, State.raise_runState]
  · exact absurd hr hn

theorem State.load_runState_ne_awaitingKey (hs : s.runState ≠ .awaitingKey) (bytes : List Byte) :
    (s.load bytes).runState ≠ .awaitingKey := by
  by_cases hr : s.runState = .running
  · rw [State.load_runState hr]
    split <;> simp
  · rwa [State.load_of_not_running hr]

/-- A new press ends a wait; no other SetKey touches `run_state` (decision D16). -/
theorem State.setKey_runState (s : State) (k : Nibble) (pressed : Bool) : (s.setKey k pressed).runState =
    if s.runState = .awaitingKey ∧ pressed = true ∧ s.key k = false then .running else s.runState := by
  split
  next hc =>
    obtain ⟨hw, rfl, hk⟩ := hc
    rw [State.setKey_completes hw hk, State.completeWait_runState]
  next hc => rw [State.setKey_plain hc, State.writeKey_runState]

theorem State.deliver_total (s : State) (e : Event) : ∃ t, s.deliver e = .next t := by
  cases e
  case cycle =>
    rcases s.cycle_cases with ⟨i, -, -, he⟩ | ⟨-, -, he⟩ | ⟨-, he⟩
    · obtain ⟨t, ht, -⟩ := exec_effect i s
      exact ⟨t, he.trans ht⟩
    · exact ⟨_, he⟩
    · exact ⟨_, he⟩
  all_goals exact ⟨_, rfl⟩

/-- While the core is not Running, no event but Reset and a new press that ends a wait touches `run_state`
(decisions D16, D33). -/
theorem State.deliver_runState_of_not_running {e : Event} (hr : s.runState ≠ .running) (he : e ≠ .reset)
    (h : s.deliver e = .next t) : t.runState =
      if s.runState = .awaitingKey ∧ ∃ k, e = .setKey k true ∧ s.key k = false then .running else s.runState := by
  cases e with
  | reset => exact absurd rfl he
  | load bytes =>
    cases h
    simp [State.load_of_not_running hr]
  | cycle =>
    cases (State.cycle_of_not_running hr).symm.trans h
    simp
  | tick =>
    cases h
    simp
  | setKey k pressed =>
    cases h
    simp [State.setKey_runState, and_comm]

/-- Settles O48, one transition of R30's table after another. -/
theorem runStateFollowsTheTransitionTable : Obligations.RunStateFollowsTheTransitionTable := by
  intro s e
  obtain ⟨t, h⟩ := s.deliver_total e
  refine ⟨t, h, ?reset, ?load, ?cycle, ?others, ?awaiting, ?halted⟩
  case reset =>
    rintro rfl
    cases h
    rfl
  case load =>
    rintro hr bytes rfl
    cases h
    exact State.load_runState hr bytes
  case cycle =>
    rintro hr rfl
    exact ⟨State.cycle_waits_iff hr h, State.cycle_halts_iff hr h⟩
  case others =>
    rintro hr (rfl | ⟨k, pressed, rfl⟩) <;> cases h
    · exact hr
    · simp [State.setKey_runState, hr]
  case awaiting =>
    intro hw he
    simpa [hw] using State.deliver_runState_of_not_running (by simp [hw]) he h
  case halted =>
    intro hh he
    simpa [hh] using State.deliver_runState_of_not_running (by simp [hh]) he h

end Sys2Proof.Machine
end

section
/-! PROOF. `wait_reg` outside a wait (spec/10_state.md R31; O40). -/

namespace Sys2Proof.Machine

/-- The same machine with another value in `wait_reg`. -/
def State.withWaitReg (s : State) (w : Reg) : State := { s with waitReg := w }

theorem State.storeUpTo_withWaitReg (s : State) (w : Reg) (n : Nat) :
    (s.withWaitReg w).storeUpTo n = (s.storeUpTo n).withWaitReg w := by
  induction n with
  | zero => rfl
  | succ n ih => rw [State.storeUpTo, ih]; rfl

theorem State.loadUpTo_withWaitReg (s : State) (w : Reg) (n : Nat) :
    (s.withWaitReg w).loadUpTo n = (s.loadUpTo n).withWaitReg w := by
  induction n with
  | zero => rfl
  | succ n ih => rw [State.loadUpTo, ih]; rfl

theorem State.drawRows_withWaitReg (s : State) (w : Reg) (k : Canvas) (cx cy : Byte) (n : Nat) :
    (s.withWaitReg w).drawRows k cx cy n = s.drawRows k cx cy n := by
  induction n with
  | zero => rfl
  | succ n ih => rw [State.drawRows, ih]; rfl

theorem State.writeBytes_withWaitReg (bs : List Byte) (w : Reg) : ∀ (s : State) (a : Nat),
    (s.withWaitReg w).writeBytes a bs = (s.writeBytes a bs).withWaitReg w := by
  induction bs with
  | nil => intro s a; rfl
  | cons b bs ih => intro s a; exact ih (s.writeByte a b) (a + 1)

theorem State.useRnd_withWaitReg (s : State) (w : Reg) : (s.withWaitReg w).useRnd = s.useRnd.withWaitReg w := by
  unfold State.useRnd State.withWaitReg
  dsimp only
  split <;> rfl

theorem State.skipIf_withWaitReg (s : State) (w : Reg) (c : Bool) :
    (s.withWaitReg w).skipIf c = (s.skipIf c).withWaitReg w := by cases c <;> rfl

/-- Every instruction but LD Vx,K, which overwrites `wait_reg`, passes its value on unread. -/
theorem exec_withWaitReg {i : Instr} {s t : State} (hi : ∀ x, i ≠ .ldVxK x) (w : Reg) (h : exec i s = .next t) :
    exec i (s.withWaitReg w) = .next (t.withWaitReg w) := by
  cases i
  case call nnn =>
    by_cases full : s.sp = s.params.stackDepth
    · cases (exec_call_of_full full).symm.trans h
      exact exec_call_of_full (s := s.withWaitReg w) full
    · cases (exec_call_of_room full).symm.trans h
      exact exec_call_of_room (s := s.withWaitReg w) full
  case ret =>
    rcases stack_cases s.stack with empty | ⟨ws, a, newest⟩
    · cases (exec_ret_of_empty empty).symm.trans h
      exact exec_ret_of_empty (s := s.withWaitReg w) empty
    · cases (exec_ret_of_append newest).symm.trans h
      exact exec_ret_of_append (s := s.withWaitReg w) newest
  case ldVxK x => exact absurd rfl (hi x)
  all_goals cases h
  case rnd x nn =>
    exact congrArg (fun u : State => (.next (u.setReg x (s.rndByte &&& nn)) : Result)) (s.advance.useRnd_withWaitReg w)
  case drw x y n =>
    exact congrArg
      (fun k : Canvas => (.next ({ (s.withWaitReg w).advance with fb := k.1 }.setReg vF (flagByte k.2)) : Result))
      (s.drawRows_withWaitReg w (s.fb, false) (s.reg x) (s.reg y) n.toNat)
  case storeRegs x => exact congrArg _ (s.advance.storeUpTo_withWaitReg w _)
  case loadRegs x => exact congrArg _ (s.advance.loadUpTo_withWaitReg w _)
  case seImm | sneImm | seReg | sneReg | skp | sknp => exact congrArg _ (s.advance.skipIf_withWaitReg w _)
  all_goals rfl

theorem State.load_withWaitReg (s : State) (w : Reg) (bytes : List Byte) :
    (s.withWaitReg w).load bytes = (s.load bytes).withWaitReg w := by
  rcases s.load_cases bytes with ⟨hr, fits, he⟩ | ⟨hr, large, he⟩ | ⟨hn, he⟩
  · rw [he, ← State.writeBytes_withWaitReg]
    exact State.load_of_fits (s := s.withWaitReg w) hr fits
  · rw [he]
    exact State.load_of_large (s := s.withWaitReg w) hr large
  · rw [he]
    exact State.load_of_not_running (s := s.withWaitReg w) hn bytes

/-- Outside a wait an event either overwrites `wait_reg` or passes its value on, unread, and then begins no wait. -/
theorem State.deliver_withWaitReg {s t : State} {e : Event} (w : Reg) (hs : s.runState ≠ .awaitingKey)
    (h : s.deliver e = .next t) : (s.withWaitReg w).deliver e = .next t ∨
      ((s.withWaitReg w).deliver e = .next (t.withWaitReg w) ∧ t.runState ≠ .awaitingKey) := by
  cases e with
  | reset => exact .inl h
  | tick =>
    cases h
    exact .inr ⟨rfl, hs⟩
  | load bytes =>
    cases h
    exact .inr ⟨congrArg _ (s.load_withWaitReg w bytes), State.load_runState_ne_awaitingKey hs bytes⟩
  | setKey k pressed =>
    cases h
    have plain : ¬ (s.runState = .awaitingKey ∧ pressed = true ∧ s.key k = false) := fun hc => hs hc.1
    rw [State.setKey_plain plain]
    exact .inr ⟨congrArg _ (State.setKey_plain (s := s.withWaitReg w) plain), hs⟩
  | cycle =>
    rcases s.cycle_cases with ⟨i, hr, hd, he⟩ | ⟨hr, hd, he⟩ | ⟨hn, he⟩
    · have hw : (s.withWaitReg w).cycle = exec i (s.withWaitReg w) :=
        State.cycle_of_decode (s := s.withWaitReg w) hr hd
      have ht : exec i s = .next t := he.symm.trans h
      by_cases hi : ∃ x, i = .ldVxK x
      · obtain ⟨x, rfl⟩ := hi
        exact .inl (hw.trans ht)
      · exact .inr ⟨hw.trans (exec_withWaitReg (fun x e => hi ⟨x, e⟩) w ht), mt (exec_waits_iff hr ht).1 hi⟩
    · cases he.symm.trans h
      exact .inr ⟨State.cycle_of_unknown (s := s.withWaitReg w) hr hd, by simp⟩
    · cases he.symm.trans h
      exact .inr ⟨State.cycle_of_not_running (s := s.withWaitReg w) hn, hs⟩

/-- Settles O40: LD Vx,K and Reset overwrite the value, and nothing else begins a wait. -/
theorem waitRegisterIsInvisibleOutsideAWait : Obligations.WaitRegisterIsInvisibleOutsideAWait := by
  intro s t w e hs h
  rcases State.deliver_withWaitReg w hs h with overwritten | ⟨passed, running⟩
  · exact ⟨t, overwritten, rfl, fun _ => rfl⟩
  · exact ⟨_, passed, rfl, fun waiting => absurd waiting running⟩

end Sys2Proof.Machine
end

section
/-! PROOF. The Tick and Reset events (spec/47_timers.md R149, spec/10_state.md R34; O42, O45). -/

namespace Sys2Proof.Machine

theorem State.iterate_tick (s : State) (n : Nat) :
    State.tick^[n] s = { s with dt := timerStep^[n] s.dt, st := timerStep^[n] s.st } := by
  induction n with
  | zero => rfl
  | succ n ih => simp only [Function.iterate_succ_apply', ih, State.tick]

theorem toNat_iterate_timerStep (w : Byte) (n : Nat) : (timerStep^[n] w).toNat = w.toNat - n := by
  induction n with
  | zero => rfl
  | succ n ih => rw [Function.iterate_succ_apply', toNat_timerStep, ih, Nat.sub_sub]

/-- Settles O42: n ticks step each timer n times on its own. -/
theorem ticksCountBothTimersDownToZero : Obligations.TicksCountBothTimersDownToZero := by
  intro s n
  rw [State.iterate_tick]
  exact ⟨toNat_iterate_timerStep _ _, toNat_iterate_timerStep _ _, rfl, rfl⟩

theorem State.readByte_resetEvent (s : State) (a : Nat) :
    s.resetEvent.readByte a = if a % 4096 < 80 then s.params.fontTable.getD (a % 4096) 0 else 0 := by
  simp [State.readByte, Memory.read, Memory.lookup, Memory.background, Config.fontBase, Config.fontSize, Config.memSize]

/-- Settles O45, item by item. -/
theorem resetEventLeavesResetValues : Obligations.ResetEventLeavesResetValues := by
  intro s
  refine ⟨s.resetEvent, rfl, s.readByte_resetEvent, ?registers, rfl, rfl, rfl, rfl, rfl, FrameBuffer.pixel_clear,
    ?keys, rfl, rfl, rfl, rfl, rfl, rfl, rfl⟩
  case registers => intro r; simp [State.reg, Vector.get_eq_getElem]
  case keys => intro k; simp [State.key]

end Sys2Proof.Machine
end

section
/-! PROOF. Memory: fetching, a read after a write, and the bytes an instruction leaves alone (spec/20_memory.md R51 to
R58, R65; O7, O29, O30, O31). -/

namespace Sys2Proof.Machine

variable {i : Instr} {s t : State}

/-! ## Reading and writing -/

/-- A read reduces its address, so reducing it beforehand changes nothing (R51, decision D1). -/
theorem State.readByte_mod (s : State) (a : Nat) : s.readByte (a % 4096) = s.readByte a :=
  congrArg (s.mem.read s.params) (Nat.mod_mod a 4096)

/-- Settles O7, by the value of a word built from its two bytes. -/
theorem fetchIsBigEndianAndMasked : Obligations.FetchIsBigEndianAndMasked := by
  intro s
  rw [State.readByte_mod, State.readByte_mod]
  exact toNat_wordOfBytes _ _

/-- Settles O29: it is the law of `writeByte`, which rests on the list inductions for the stored cells. -/
theorem readAfterWriteAtMaskedAddress : Obligations.ReadAfterWriteAtMaskedAddress :=
  State.readByte_writeByte

/-! ## The bytes an instruction leaves alone -/

/-- No instruction changes the parameters, which unlisted bytes are read from (log 10). -/
theorem Effect.params_eq (effect : Effect s i t) : t.params = s.params := by
  cases effect <;> rfl

/-- An instruction with no stored address leaves memory as it was. -/
theorem exec_mem_of_stores_nothing (hi : storedAddresses i s = []) (h : exec i s = .next t) : t.mem = s.mem := by
  cases i
  case ldB | storeRegs => simp [storedAddresses, List.range_succ] at hi
  case call =>
    by_cases full : s.sp = s.params.stackDepth
    · cases (exec_call_of_full full).symm.trans h
      rfl
    · cases (exec_call_of_room full).symm.trans h
      rfl
  case ret =>
    rcases stack_cases s.stack with empty | ⟨ws, w, newest⟩
    · cases (exec_ret_of_empty empty).symm.trans h
      rfl
    · cases (exec_ret_of_append newest).symm.trans h
      rfl
  case loadRegs =>
    cases h
    rw [State.loadUpTo_eq]
    rfl
  case rnd =>
    cases h
    rw [State.useRnd_eq]
    rfl
  case seImm | sneImm | seReg | sneReg | skp | sknp =>
    cases h
    rw [State.skipIf_eq]
    rfl
  all_goals
    cases h
    rfl

/-- The decimal store changes the bytes at `I`, `I + 1` and `I + 2` alone (R128). -/
theorem exec_ldB_readByte_of_ne {x : Reg} {a : Nat} (h : exec (.ldB x) s = .next t)
    (ha : ∀ k < 3, a % Config.memSize ≠ s.indexed k % Config.memSize) : t.readByte a = s.readByte a := by
  cases h
  rw [State.readByte_writeByte, if_neg (ha 2 (by decide)), State.readByte_writeByte, if_neg (ha 1 (by decide)),
    State.readByte_writeByte, if_neg (ha 0 (by decide))]
  rfl

/-- The block store changes the bytes at `I` to `I + x` alone (R130). -/
theorem exec_storeRegs_readByte_of_ne {x : Reg} {a : Nat} (h : exec (.storeRegs x) s = .next t)
    (ha : ∀ k ≤ x.toNat, a % Config.memSize ≠ s.indexed k % Config.memSize) : t.readByte a = s.readByte a := by
  cases h
  exact (State.readByte_storeUpTo s.advance (x.toNat + 1) x.isLt a).2 fun k hk => ha k (Nat.le_of_lt_succ hk)

/-- Settles O30: the frames of the two storing instructions; every other one leaves memory as it was. -/
theorem onlyStoringInstructionsChangeMemory : Obligations.OnlyStoringInstructionsChangeMemory := by
  intro i s t a h ha
  cases i
  case ldB x =>
    refine exec_ldB_readByte_of_ne h fun k hk e => ha ?_
    have stored : s.indexed k % Config.memSize ∈ (List.range 3).map fun k => s.indexed k % Config.memSize :=
      List.mem_map_of_mem (List.mem_range.2 hk)
    exact e ▸ stored
  case storeRegs x =>
    refine exec_storeRegs_readByte_of_ne h fun k hk e => ha ?_
    exact e ▸ List.mem_map_of_mem (List.mem_range.2 (Nat.lt_succ_of_le hk))
  all_goals
    exact State.readByte_congr s (exec_mem_of_stores_nothing rfl h) (effect_of_exec h).params_eq a

/-- Settles O31: an address below 0x200 is none of the addresses an obedient program stores to. -/
theorem reservedRegionSurvivesObedientPrograms : Obligations.ReservedRegionSurvivesObedientPrograms := by
  intro i s t obedient h a ha
  refine onlyStoringInstructionsChangeMemory i s t a h fun stored => ?_
  have base : 0x200 ≤ a % 4096 := obedient _ stored
  omega

end Sys2Proof.Machine
end

section
/-! PROOF. The encoding: the decoder family by family, the decoder and the encoder as inverses of each other, and the
opcode map as the decoder's table (spec/30_encoding.md R70 to R77; O1 to O5). -/

namespace Sys2Proof

/-! ## Well-formedness: a field's type is its width (R71) -/

@[simp] theorem fitsNibble_toNat (x : Nibble) : fitsNibble x.toNat = true := decide_eq_true x.isLt

@[simp] theorem fitsByte_toNat (nn : Byte) : fitsByte nn.toNat = true := decide_eq_true nn.isLt

@[simp] theorem fitsAddr_toNat (nnn : Addr) : fitsAddr nnn.toNat = true := decide_eq_true nnn.isLt

theorem Instr.wf_eq_true (i : Instr) : i.wf = true := by
  cases i <;> simp [Instr.wf]

/-! ## The decoder on a built word, for the families whose low bits select -/

section
variable (x y n : Nibble) (nn : Byte) (nnn : Addr)

theorem decode_wordNNN_family0 : decode (wordNNN 0x0#4 nnn) = decode0 (wordNNN 0x0#4 nnn) := by
  simp [decode]

theorem decode_wordXYN_family5 :
    decode (wordXYN 0x5#4 x y n) = if n = 0x0#4 then some (.seReg x y) else none := by
  simp [decode]

theorem decode_wordXYN_family8 : decode (wordXYN 0x8#4 x y n) = decode8 n x y := by
  simp [decode]

theorem decode_wordXYN_family9 :
    decode (wordXYN 0x9#4 x y n) = if n = 0x0#4 then some (.sneReg x y) else none := by
  simp [decode]

theorem decode_wordXNN_familyE : decode (wordXNN 0xE#4 x nn) = decodeE nn x := by
  simp [decode]

theorem decode_wordXNN_familyF : decode (wordXNN 0xF#4 x nn) = decodeF nn x := by
  simp [decode]

end

/-! ## Decoding an encoded instruction -/

/-- The decoder reads back the instruction whose word it is given, every field included. -/
theorem decode_encode (i : Instr) : decode i.encode = some i := by
  cases i
  case cls | ret => rfl
  case jp | call | ldI | jpV0 | seImm | sneImm | ldImm | addImm | rnd | drw => simp [Instr.encode, decode]
  case seReg x y => exact decode_wordXYN_family5 x y 0x0#4
  case sneReg x y => exact decode_wordXYN_family9 x y 0x0#4
  case ldReg x y | orReg x y | andReg x y | xorReg x y | addReg x y | sub x y | shr x y | subn x y | shl x y =>
    exact decode_wordXYN_family8 x y _
  case skp x | sknp x => exact decode_wordXNN_familyE x _
  case ldVxDt x | ldVxK x | ldDtVx x | ldStVx x | addI x | ldF x | ldB x | storeRegs x | loadRegs x =>
    exact decode_wordXNN_familyF x _

/-- The decoder of bytes reads one word and leaves what follows it (R54, R70). -/
theorem decodeBytes_of_decode {hi lo : Byte} {i : Instr} (h : decode (wordOfBytes hi lo) = some i)
    (rest : List Byte) : decodeBytes (hi :: lo :: rest) = .ok (i, rest) := by
  simp [decodeBytes, h]

theorem decodeBytes_encodeBytes (i : Instr) (rest : List Byte) : decodeBytes (i.encodeBytes ++ rest) = .ok (i, rest) :=
  decodeBytes_of_decode ((congrArg decode (wordOfBytes_highByte_lowByte i.encode)).trans (decode_encode i)) rest

/-- Settles O1: `decode_encode`, on the word and on the word's two bytes. -/
theorem decodeOfEncodeGivesInstructionBack : Obligations.DecodeOfEncodeGivesInstructionBack :=
  fun i rest _ => ⟨decode_encode i, decodeBytes_encodeBytes i rest⟩

/-! ## Encoding a decoded word -/

section
variable {w : Word} {f x y n : Nibble} {nn : Byte} {i : Instr}

theorem wordNNN_of_family (h : family w = f) : wordNNN f (fieldNNN w) = w := h ▸ wordNNN_fields w

theorem wordXNN_of_fields (hf : family w = f) (hnn : fieldNN w = nn) : wordXNN f (fieldX w) nn = w :=
  hf ▸ hnn ▸ wordXNN_fields w

theorem wordXYN_of_fields (hf : family w = f) (hn : fieldN w = n) : wordXYN f (fieldX w) (fieldY w) n = w :=
  hf ▸ hn ▸ wordXYN_fields w

theorem encode_of_decode0 (h : decode0 w = some i) : i.encode = w := by
  unfold decode0 at h
  split_ifs at h with hcls hret
  · cases h
    exact hcls.symm
  · cases h
    exact hret.symm

theorem encode_of_decode8 (h : decode8 n x y = some i) : i.encode = wordXYN 0x8#4 x y n := by
  unfold decode8 at h
  split at h
  case h_10 => cases h
  all_goals
    next hn =>
      cases h
      exact congrArg (wordXYN 0x8#4 x y) (BitVec.eq_of_toNat_eq hn.symm)

theorem encode_of_decodeE (h : decodeE nn x = some i) : i.encode = wordXNN 0xE#4 x nn := by
  unfold decodeE at h
  split_ifs at h
  all_goals
    subst nn
    cases h
    rfl

theorem encode_of_decodeF (h : decodeF nn x = some i) : i.encode = wordXNN 0xF#4 x nn := by
  unfold decodeF at h
  split_ifs at h
  all_goals
    subst nn
    cases h
    rfl

/-- A word that decodes is the word of its instruction: its family and the bits its sub-decoder tests are the pattern's
fixed bits, and the other bits are the instruction's fields. The split's case `h_k` is family `k - 1`. -/
theorem encode_of_decode (h : decode w = some i) : i.encode = w := by
  unfold decode at h
  split at h <;> rename_i hfam
  case h_1 => exact encode_of_decode0 h
  case h_9 => exact (encode_of_decode8 h).trans (wordXYN_of_fields (BitVec.eq_of_toNat_eq hfam) rfl)
  case h_15 => exact (encode_of_decodeE h).trans (wordXNN_of_fields (BitVec.eq_of_toNat_eq hfam) rfl)
  case h_16 => exact (encode_of_decodeF h).trans (wordXNN_of_fields (BitVec.eq_of_toNat_eq hfam) rfl)
  case h_17 => cases h
  case h_6 | h_10 =>
    split at h <;> cases h
    next hn => exact wordXYN_of_fields (BitVec.eq_of_toNat_eq hfam) hn
  case h_2 | h_3 | h_11 | h_12 =>
    cases h
    exact wordNNN_of_family (BitVec.eq_of_toNat_eq hfam)
  case h_4 | h_5 | h_7 | h_8 | h_13 =>
    cases h
    exact wordXNN_of_fields (BitVec.eq_of_toNat_eq hfam) rfl
  case h_14 =>
    cases h
    exact wordXYN_of_fields (BitVec.eq_of_toNat_eq hfam) rfl

/-- Settles O2: `encode_of_decode`; every instruction is well-formed by the types of its fields. -/
theorem encodeOfDecodeGivesWordBack : Obligations.EncodeOfDecodeGivesWordBack :=
  fun _ i h => ⟨encode_of_decode h, i.wf_eq_true⟩

end

/-! ## The rows of the opcode map -/

section
variable {w : Word} {f n : Nibble} {nn : Byte}

theorem Instr.row_mem_opcodeRows (i : Instr) : i.row ∈ opcodeRows := by
  cases i <;> simp [Instr.row, opcodeRows]

/-- The word of an instruction selects the instruction's own row: the family RowMatch, collected. -/
theorem Instr.encode_and_row_mask : ∀ i : Instr, i.encode &&& i.row.mask = i.row.bits
  | .cls => Laws.RowMatch.cls
  | .ret => Laws.RowMatch.ret
  | .jp nnn => Laws.RowMatch.jp nnn
  | .call nnn => Laws.RowMatch.call nnn
  | .seImm x nn => Laws.RowMatch.seImm x nn
  | .sneImm x nn => Laws.RowMatch.sneImm x nn
  | .seReg x y => Laws.RowMatch.seReg x y
  | .ldImm x nn => Laws.RowMatch.ldImm x nn
  | .addImm x nn => Laws.RowMatch.addImm x nn
  | .ldReg x y => Laws.RowMatch.ldReg x y
  | .orReg x y => Laws.RowMatch.orReg x y
  | .andReg x y => Laws.RowMatch.andReg x y
  | .xorReg x y => Laws.RowMatch.xorReg x y
  | .addReg x y => Laws.RowMatch.addReg x y
  | .sub x y => Laws.RowMatch.sub x y
  | .shr x y => Laws.RowMatch.shr x y
  | .subn x y => Laws.RowMatch.subn x y
  | .shl x y => Laws.RowMatch.shl x y
  | .sneReg x y => Laws.RowMatch.sneReg x y
  | .ldI nnn => Laws.RowMatch.ldI nnn
  | .jpV0 nnn => Laws.RowMatch.jpV0 nnn
  | .rnd x nn => Laws.RowMatch.rnd x nn
  | .drw x y n => Laws.RowMatch.drw x y n
  | .skp x => Laws.RowMatch.skp x
  | .sknp x => Laws.RowMatch.sknp x
  | .ldVxDt x => Laws.RowMatch.ldVxDt x
  | .ldVxK x => Laws.RowMatch.ldVxK x
  | .ldDtVx x => Laws.RowMatch.ldDtVx x
  | .ldStVx x => Laws.RowMatch.ldStVx x
  | .addI x => Laws.RowMatch.addI x
  | .ldF x => Laws.RowMatch.ldF x
  | .ldB x => Laws.RowMatch.ldB x
  | .storeRegs x => Laws.RowMatch.storeRegs x
  | .loadRegs x => Laws.RowMatch.loadRegs x

theorem family_of_and_F000 (h : w &&& 0xF000#16 = wordNNN f 0) : family w = f := by
  simpa using congrArg family ((and_F000 w).symm.trans h)

theorem wordXYN_of_and_F00F (h : w &&& 0xF00F#16 = wordXYN f 0 0 n) : wordXYN f (fieldX w) (fieldY w) n = w := by
  obtain ⟨hf, hn⟩ := wordXYN_inj ((and_F00F w).symm.trans h)
  exact wordXYN_of_fields hf hn

theorem wordXNN_of_and_F0FF (h : w &&& 0xF0FF#16 = wordXNN f 0 nn) : wordXNN f (fieldX w) nn = w := by
  have same : wordXNN (family w) 0 (fieldNN w) = wordXNN f 0 nn := (and_F0FF w).symm.trans h
  exact wordXNN_of_fields (by simpa using congrArg family same) (by simpa using congrArg fieldNN same)

theorem eq_of_and_FFFF {v : Word} (h : w &&& 0xFFFF#16 = v) : v = w := h.symm.trans (and_FFFF w)

/-- The opcode map row by row: a word that a row selects is the word of that row's instruction (R75). -/
theorem encode_of_selected (w : Word) :
    ∀ r ∈ opcodeRows, w &&& r.mask = r.bits → ∃ i : Instr, i.row = r ∧ i.encode = w := by
  simp only [opcodeRows, List.cons_append, List.nil_append, List.forall_mem_cons]
  exact ⟨
    fun h => ⟨.cls, rfl, eq_of_and_FFFF h⟩,
    fun h => ⟨.ret, rfl, eq_of_and_FFFF h⟩,
    fun h => ⟨.jp _, rfl, wordNNN_of_family (family_of_and_F000 h)⟩,
    fun h => ⟨.call _, rfl, wordNNN_of_family (family_of_and_F000 h)⟩,
    fun h => ⟨.seImm _ _, rfl, wordXNN_of_fields (family_of_and_F000 h) rfl⟩,
    fun h => ⟨.sneImm _ _, rfl, wordXNN_of_fields (family_of_and_F000 h) rfl⟩,
    fun h => ⟨.seReg _ _, rfl, wordXYN_of_and_F00F h⟩,
    fun h => ⟨.ldImm _ _, rfl, wordXNN_of_fields (family_of_and_F000 h) rfl⟩,
    fun h => ⟨.addImm _ _, rfl, wordXNN_of_fields (family_of_and_F000 h) rfl⟩,
    fun h => ⟨.ldReg _ _, rfl, wordXYN_of_and_F00F h⟩,
    fun h => ⟨.orReg _ _, rfl, wordXYN_of_and_F00F h⟩,
    fun h => ⟨.andReg _ _, rfl, wordXYN_of_and_F00F h⟩,
    fun h => ⟨.xorReg _ _, rfl, wordXYN_of_and_F00F h⟩,
    fun h => ⟨.addReg _ _, rfl, wordXYN_of_and_F00F h⟩,
    fun h => ⟨.sub _ _, rfl, wordXYN_of_and_F00F h⟩,
    fun h => ⟨.shr _ _, rfl, wordXYN_of_and_F00F h⟩,
    fun h => ⟨.subn _ _, rfl, wordXYN_of_and_F00F h⟩,
    fun h => ⟨.shl _ _, rfl, wordXYN_of_and_F00F h⟩,
    fun h => ⟨.sneReg _ _, rfl, wordXYN_of_and_F00F h⟩,
    fun h => ⟨.ldI _, rfl, wordNNN_of_family (family_of_and_F000 h)⟩,
    fun h => ⟨.jpV0 _, rfl, wordNNN_of_family (family_of_and_F000 h)⟩,
    fun h => ⟨.rnd _ _, rfl, wordXNN_of_fields (family_of_and_F000 h) rfl⟩,
    fun h => ⟨.drw _ _ _, rfl, wordXYN_of_fields (family_of_and_F000 h) rfl⟩,
    fun h => ⟨.skp _, rfl, wordXNN_of_and_F0FF h⟩,
    fun h => ⟨.sknp _, rfl, wordXNN_of_and_F0FF h⟩,
    fun h => ⟨.ldVxDt _, rfl, wordXNN_of_and_F0FF h⟩,
    fun h => ⟨.ldVxK _, rfl, wordXNN_of_and_F0FF h⟩,
    fun h => ⟨.ldDtVx _, rfl, wordXNN_of_and_F0FF h⟩,
    fun h => ⟨.ldStVx _, rfl, wordXNN_of_and_F0FF h⟩,
    fun h => ⟨.addI _, rfl, wordXNN_of_and_F0FF h⟩,
    fun h => ⟨.ldF _, rfl, wordXNN_of_and_F0FF h⟩,
    fun h => ⟨.ldB _, rfl, wordXNN_of_and_F0FF h⟩,
    fun h => ⟨.storeRegs _, rfl, wordXNN_of_and_F0FF h⟩,
    fun h => ⟨.loadRegs _, rfl, wordXNN_of_and_F0FF h⟩,
    nofun⟩

theorem decode_of_selected {r : OpcodeRow} (hr : r ∈ opcodeRows) (h : w &&& r.mask = r.bits) :
    ∃ i, decode w = some i ∧ i.row = r ∧ i.encode = w := by
  obtain ⟨i, hrow, rfl⟩ := encode_of_selected w r hr h
  exact ⟨i, decode_encode i, hrow, rfl⟩

theorem decode_eq_none_of_unselected (h : ∀ r ∈ opcodeRows, w &&& r.mask ≠ r.bits) : decode w = none := by
  refine Option.eq_none_iff_forall_ne_some.2 fun i hd => h i.row i.row_mem_opcodeRows ?_
  exact encode_of_decode hd ▸ i.encode_and_row_mask

/-- Both rows are the row of the one instruction the word decodes to. -/
theorem row_unique {r q : OpcodeRow} (hr : r ∈ opcodeRows) (hq : q ∈ opcodeRows) (hwr : w &&& r.mask = r.bits)
    (hwq : w &&& q.mask = q.bits) : r = q := by
  obtain ⟨i, hi, rfl, -⟩ := decode_of_selected hr hwr
  obtain ⟨j, hj, rfl, -⟩ := decode_of_selected hq hwq
  cases hi.symm.trans hj
  rfl

/-- Settles O3: a decoded word selects its instruction's row, and a selected row gives the instruction back. -/
theorem wordDecodesByTheRowItSelects : Obligations.WordDecodesByTheRowItSelects :=
  fun _ => ⟨decode_eq_none_of_unselected, fun _ => decode_of_selected, fun _ hr _ hq => row_unique hr hq⟩

end

/-! ## Unknown words (R76) -/

theorem ite_some_eq_none {c : Prop} [Decidable c] {i : Instr} {o : Option Instr} :
    (if c then some i else o) = none ↔ ¬ c ∧ o = none := by
  split_ifs with h <;> simp [h]

theorem wordNNN_inj {f : Nibble} {a b : Addr} : wordNNN f a = wordNNN f b ↔ a = b :=
  ⟨fun h => by simpa using congrArg fieldNNN h, congrArg _⟩

section
variable (x y n : Nibble) (nn : Byte) (nnn : Addr)

theorem unknown_family0_iff : decode (wordNNN 0x0#4 nnn) = none ↔ nnn ≠ 0x0E0#12 ∧ nnn ≠ 0x0EE#12 := by
  have hcls : wordNNN 0x0#4 nnn = 0x00E0#16 ↔ nnn = 0x0E0#12 := wordNNN_inj (b := 0x0E0#12)
  have hret : wordNNN 0x0#4 nnn = 0x00EE#16 ↔ nnn = 0x0EE#12 := wordNNN_inj (b := 0x0EE#12)
  simp [decode_wordNNN_family0, decode0, ite_some_eq_none, hcls, hret]

theorem unknown_family5_iff : decode (wordXYN 0x5#4 x y n) = none ↔ n ≠ 0x0#4 := by
  simp [decode_wordXYN_family5]

theorem unknown_family8_iff :
    decode (wordXYN 0x8#4 x y n) = none ↔ n.toNat ∈ [0x8, 0x9, 0xA, 0xB, 0xC, 0xD, 0xF] := by
  have := n.isLt
  rw [decode_wordXYN_family8]
  unfold decode8
  split
  case h_10 =>
    simp only [List.mem_cons, List.not_mem_nil, or_false, true_iff, imp_false] at *
    omega
  all_goals
    next hn => simp [hn]

theorem unknown_family9_iff : decode (wordXYN 0x9#4 x y n) = none ↔ n ≠ 0x0#4 := by
  simp [decode_wordXYN_family9]

theorem unknown_familyE_iff : decode (wordXNN 0xE#4 x nn) = none ↔ nn.toNat ∉ [0x9E, 0xA1] := by
  simp [decode_wordXNN_familyE, decodeE, ite_some_eq_none, ← BitVec.toNat_inj]

theorem unknown_familyF_iff : decode (wordXNN 0xF#4 x nn) = none ↔
    nn.toNat ∉ [0x07, 0x0A, 0x15, 0x18, 0x1E, 0x29, 0x33, 0x55, 0x65] := by
  simp [decode_wordXNN_familyF, decodeF, ite_some_eq_none, ← BitVec.toNat_inj]

/-- The ten families whose words all decode: their patterns fix the family alone. -/
theorem decode_wordNNN_ne_none {f : Nibble}
    (hf : f.toNat ∈ [0x1, 0x2, 0x3, 0x4, 0x6, 0x7, 0xA, 0xB, 0xC, 0xD]) : decode (wordNNN f nnn) ≠ none := by
  simp only [List.mem_cons, List.not_mem_nil, or_false] at hf
  rcases hf with h | h | h | h | h | h | h | h | h | h <;> simp [decode, h]

end

/-- Settles O4: the six families with unknown words, each by its sub-decoder, and the ten without. -/
theorem unknownOpcodesAreTheListedWords : Obligations.UnknownOpcodesAreTheListedWords :=
  fun x y n nn nnn =>
    ⟨unknown_family0_iff nnn, unknown_family5_iff x y n, unknown_family8_iff x y n, unknown_family9_iff x y n,
      unknown_familyE_iff x nn, unknown_familyF_iff x nn, fun _ => decode_wordNNN_ne_none nnn⟩

/-- Settles O5: each word is evaluated by the decoder. -/
theorem writtenOutWordsDecode : Obligations.WrittenOutWordsDecode := by
  unfold Obligations.WrittenOutWordsDecode
  decide

end Sys2Proof
end

section
/-! PROOF. The cycle: what one Cycle does, how an instruction ends, and where it leaves `pc` (spec/40_cycle.md R90 to
R94; O6, O8, O9, O10, O14, O54). -/

namespace Sys2Proof.Machine

variable {i : Instr} {s t : State}

/-! ## One Cycle -/

@[simp] theorem State.takeEvent_runState (s : State) : s.takeEvent.runState = s.runState := by
  rw [State.takeEvent_eq]

/-- A fetch reads memory, `pc` and the parameters, none of them the host's side. -/
@[simp] theorem State.takeEvent_fetchWord (s : State) : s.takeEvent.fetchWord = s.fetchWord := by
  rw [State.takeEvent_eq]
  rfl

/-- Settles O6: taking the event off leaves the run state and the fetched word as they were. -/
theorem stepRunsDecodedInstruction : Obligations.StepRunsDecodedInstruction := by
  intro s i he hr hd
  refine ⟨?_, s.takeEvent_eq⟩
  calc step s = s.takeEvent.cycle := by rw [step, he, State.deliver]
    _ = exec i s.takeEvent :=
      State.cycle_of_decode (s.takeEvent_runState.trans hr) (s.takeEvent_fetchWord ▸ hd)

/-- Settles O8: raising the error writes the run state and the latch alone (R179). -/
theorem unknownWordHaltsAndChangesNothingElse : Obligations.UnknownWordHaltsAndChangesNothingElse :=
  fun _ hr hd => State.cycle_of_unknown hr hd

/-- Settles O9, for both other run states at once. -/
theorem cycleDoesNothingUnlessRunning : Obligations.CycleDoesNothingUnlessRunning :=
  fun _ hr => State.cycle_of_not_running hr

/-! ## How an instruction ends -/

/-- An instruction that does not halt the core leaves the latch's kind alone (R32). -/
theorem exec_errKind_of_alive (h : exec i s = .next t) (alive : t.runState ≠ .halted) : t.errKind = s.errKind := by
  cases effect_of_exec h with
  | overflow | underflow => exact absurd rfl alive
  | _ => rfl

/-- Settles O10, by the run state the instruction ends in: `exec_halts_iff` and `exec_waits_iff` say which instruction
leads to which, and only the halting ones write the latch. -/
theorem everyInstructionCompletesAndOnlyCallAndRetFail :
    Obligations.EveryInstructionCompletesAndOnlyCallAndRetFail := by
  intro i s hr
  obtain ⟨t, h, -⟩ := exec_effect i s
  refine ⟨t, h, ?_⟩
  have halts := exec_halts_iff hr h
  have waits := exec_waits_iff hr h
  cases ht : t.runState with
  | halted =>
    rcases halts.1 ht with ⟨⟨nnn, rfl⟩, full⟩ | ⟨rfl, empty⟩
    · cases (exec_call_of_full full).symm.trans h
      exact .inl ⟨rfl, rfl, ⟨nnn, rfl⟩, full⟩
    · cases (exec_ret_of_empty (List.length_eq_zero_iff.1 empty)).symm.trans h
      exact .inr (.inl ⟨rfl, rfl, rfl, empty⟩)
  | awaitingKey =>
    have keeps : t.errKind = s.errKind := exec_errKind_of_alive h (by simp [ht])
    exact .inr (.inr (.inl ⟨rfl, keeps, waits.1 ht⟩))
  | running =>
    have keeps : t.errKind = s.errKind := exec_errKind_of_alive h (by simp [ht])
    have noWait := mt waits.2 (by simp [ht])
    have noFail := mt halts.2 (by simp [ht])
    exact .inr (.inr (.inr ⟨rfl, keeps, not_exists.1 noWait,
      fun nnn hi full => noFail (.inl ⟨⟨nnn, hi⟩, full⟩), fun hi empty => noFail (.inr ⟨hi, empty⟩)⟩))

/-! ## Where an instruction leaves `pc` -/

/-- Settles O14: the return pops the address the call pushed, and the stack is as before. -/
theorem callThenReturnRestoresAllButPc : Obligations.CallThenReturnRestoresAllButPc :=
  fun _ _ room => ⟨_, exec_call_of_room room, exec_ret_of_append rfl⟩

@[simp] theorem State.useRnd_pc (s : State) : s.useRnd.pc = s.pc := by
  rw [State.useRnd_eq]

@[simp] theorem State.storeUpTo_pc (s : State) (n : Nat) : (s.storeUpTo n).pc = s.pc := by
  rw [State.storeUpTo_eq]

@[simp] theorem State.loadUpTo_pc (s : State) (n : Nat) : (s.loadUpTo n).pc = s.pc := by
  rw [State.loadUpTo_eq]

/-- Settles O54, instruction by instruction: the jumps, skips and the wait are excluded, and in every other the advance
of R92 is the one write of `pc`. -/
theorem otherInstructionsAdvancePcByTwo : Obligations.OtherInstructionsAdvancePcByTwo := by
  intro i s t h jumps ret skips waits
  cases i
  case jp | call | jpV0 => simp at jumps
  case ret => exact absurd rfl ret
  case seImm | sneImm | seReg | sneReg => simp at skips
  case skp | sknp | ldVxK => simp at waits
  case rnd | storeRegs | loadRegs =>
    cases h
    simp
  all_goals
    cases h
    rfl

end Sys2Proof.Machine
end

section
/-! PROOF. Control flow: where the jumps, CALL, RET and the compare-and-skip instructions leave `pc` and the stack
(spec/41_control_flow.md R100 to R107; O11, O12, O13, O16, O17). -/

namespace Sys2Proof.Machine

/-! ## Targets and skips as numbers and conditions -/

@[simp] theorem toNat_zextAddr (nnn : Addr) : (zextAddr nnn).toNat = nnn.toNat :=
  BitVec.toNat_setWidth_of_le (by decide)

@[simp] theorem toNat_zextByte (w : Byte) : (zextByte w).toNat = w.toNat :=
  BitVec.toNat_setWidth_of_le (by decide)

/-- The largest sum, 0xFFF + 0xFF, fits 16 bits, so the addition of R107 never wraps. -/
theorem toNat_zextAddr_add_zextByte (nnn : Addr) (w : Byte) :
    (zextAddr nnn + zextByte w).toNat = nnn.toNat + w.toNat := by
  have hnnn : nnn.toNat < 4096 := nnn.isLt
  have hw : w.toNat < 256 := w.isLt
  rw [BitVec.toNat_add, toNat_zextAddr, toNat_zextByte]
  exact Nat.mod_eq_of_lt (by omega)

/-- A cycle that skips on a decided condition ends 4 or 2 bytes after its own address (R103). -/
theorem next_advance_skipIf (s : State) (c : Prop) [Decidable c] :
    (.next (s.advance.skipIf (decide c)) : Result) = .next { s with pc := if c then s.pc + 4 else s.pc + 2 } := by
  rw [State.advance_skipIf]
  by_cases h : c <;> simp [h]

/-! ## Jumps, CALL and RET -/

/-- Settles O11: the target replaces the advanced `pc`, and its zero extension keeps its value. -/
theorem jumpSetsPcToItsAddress : Obligations.JumpSetsPcToItsAddress :=
  fun _ nnn => ⟨rfl, zextAddr nnn, toNat_zextAddr nnn, rfl⟩

/-- Settles O17: the sum is below 2^16, so it is the sum of the two numbers. -/
theorem jumpV0AddsRegisterZero : Obligations.JumpV0AddsRegisterZero :=
  fun s nnn => ⟨zextAddr nnn + zextByte (s.reg 0x0#4), toNat_zextAddr_add_zextByte nnn _, rfl⟩

/-- Settles O12 by the two outcomes of CALL, with room and on a full stack. -/
theorem callPushesReturnAddressAndJumps : Obligations.CallPushesReturnAddressAndJumps :=
  fun _ nnn => ⟨rfl, fun room => ⟨zextAddr nnn, toNat_zextAddr nnn, exec_call_of_room room⟩,
    fun full => ⟨_, exec_call_of_full full, rfl, rfl, rfl, rfl⟩⟩

/-- Settles O13 by the two outcomes of RET, with a newest entry and on an empty stack. -/
theorem returnPopsNewestAddress : Obligations.ReturnPopsNewestAddress :=
  fun _ => ⟨rfl, fun _ _ stack => exec_ret_of_append stack,
    fun empty => ⟨_, exec_ret_of_empty empty, rfl, rfl, rfl⟩⟩

/-! ## Skips -/

/-- Settles O16: each meaning is the same skip, on its own comparison; the register forms with another low nibble are
unknown words of their families. -/
theorem skipsMovePcByFourOrTwo : Obligations.SkipsMovePcByFourOrTwo :=
  fun s x y _ =>
    ⟨⟨rfl, next_advance_skipIf s _⟩, ⟨rfl, next_advance_skipIf s _⟩,
      ⟨rfl, fun n => (unknown_family5_iff x y n).2, next_advance_skipIf s _⟩,
      ⟨rfl, fun n => (unknown_family9_iff x y n).2, next_advance_skipIf s _⟩⟩

end Sys2Proof.Machine
end

section
/-! PROOF. Arithmetic and logic: what each instruction leaves in the registers, and that it leaves all else but the
advance of `pc` alone (spec/42_arith_logic.md R110 to R122; O18 to O23). -/

namespace Sys2Proof.Machine

/-! ## Results and flags as numbers and conditions -/

theorem add_eq_ofNat (a b : Byte) : a + b = BitVec.ofNat 8 ((a.toNat + b.toNat) % 256) :=
  BitVec.eq_of_toNat_eq (by simp)

/-- Adding 256 first keeps the difference of the numbers from going below zero (R8). -/
theorem sub_eq_ofNat (a b : Byte) : a - b = BitVec.ofNat 8 ((a.toNat + 256 - b.toNat) % 256) := by
  have hb : b.toNat < 256 := b.isLt
  refine BitVec.eq_of_toNat_eq ?_
  rw [BitVec.toNat_sub, BitVec.toNat_ofNat]
  omega

theorem shiftRight_fst (a : Byte) : (shiftRight a).1 = BitVec.ofNat 8 (a.toNat / 2) := by
  refine BitVec.eq_of_toNat_eq ?_
  have ha : a.toNat < 256 := a.isLt
  show (a >>> 1).toNat = _
  rw [BitVec.toNat_ushiftRight, Nat.shiftRight_eq_div_pow, BitVec.toNat_ofNat]
  omega

theorem shiftRight_snd (a : Byte) : (shiftRight a).2 = decide (a.toNat % 2 = 1) :=
  Nat.testBit_zero a.toNat

theorem shiftLeft_fst (a : Byte) : (shiftLeft a).1 = BitVec.ofNat 8 (2 * a.toNat % 256) := by
  refine BitVec.eq_of_toNat_eq ?_
  show (a <<< 1).toNat = _
  rw [BitVec.toNat_shiftLeft, Nat.shiftLeft_eq, BitVec.toNat_ofNat]
  omega

/-- Bit 7 is the quotient by 128, which is 1 in the upper half of a byte's range. -/
theorem shiftLeft_snd (a : Byte) : (shiftLeft a).2 = decide (128 ≤ a.toNat) := by
  have ha : a.toNat < 256 := a.isLt
  show a.toNat.testBit 7 = _
  rw [Nat.testBit_eq_decide_div_mod_eq]
  exact decide_eq_decide.2 (by omega)

theorem flagByte_decide (c : Prop) [Decidable c] : flagByte (decide c) = oneIf c := by
  simp [flagByte, oneIf]

/-! ## The two shapes of a register writer's next state -/

section
variable (s : State) (x : Reg) {w result : Byte}

/-- Advance, then write one register: no flag, and VF is a register like the others (R111 to R116). -/
theorem advancedWithRegs_setReg (hw : w = result) :
    AdvancedWithRegs s (s.advance.setReg x w) fun r => if r = x then result else s.reg r :=
  ⟨rfl, fun r => hw ▸ s.advance.reg_setReg x r w⟩

/-- Advance, then write a result and a flag: in VF the flag wins (R110; decision D3). -/
theorem advancedWithRegs_setRegAndFlag {f : Bool} {c : Prop} [Decidable c] (hw : w = result) (hf : f = decide c) :
    AdvancedWithRegs s (s.advance.setRegAndFlag x w f) fun r =>
      if r = 0xF#4 then oneIf c else if r = x then result else s.reg r := by
  subst hw hf
  refine ⟨rfl, fun r => ?_⟩
  rw [State.reg_setRegAndFlag, flagByte_decide]
  rfl

end

/-- Settles O18: one register is written, with the immediate or with the sum. -/
theorem immediateLoadAndAddWriteOneRegister : Obligations.ImmediateLoadAndAddWriteOneRegister :=
  fun s x nn =>
    ⟨⟨rfl, _, rfl, advancedWithRegs_setReg s x rfl⟩,
      ⟨rfl, _, rfl, advancedWithRegs_setReg s x (add_eq_ofNat (s.reg x) nn)⟩⟩

/-- Settles O19: the four instructions differ in the byte alone that they write. -/
theorem copyAndBitwiseWriteOneRegister : Obligations.CopyAndBitwiseWriteOneRegister :=
  fun s x _ =>
    ⟨⟨_, rfl, advancedWithRegs_setReg s x rfl⟩, ⟨_, rfl, advancedWithRegs_setReg s x rfl⟩,
      ⟨_, rfl, advancedWithRegs_setReg s x rfl⟩, ⟨_, rfl, advancedWithRegs_setReg s x rfl⟩⟩

/-- Settles O20: the sum modulo 256, and the carry as the flag. -/
theorem addRegistersSetsCarry : Obligations.AddRegistersSetsCarry :=
  fun s x y => ⟨rfl, _, rfl, advancedWithRegs_setRegAndFlag s x (add_eq_ofNat (s.reg x) (s.reg y)) rfl⟩

/-- Settles O21: SUBN is SUB with the operands exchanged, in the difference and in the flag. -/
theorem subtractionsSetNoBorrow : Obligations.SubtractionsSetNoBorrow :=
  fun s x y =>
    ⟨⟨_, rfl, advancedWithRegs_setRegAndFlag s x (sub_eq_ofNat (s.reg x) (s.reg y)) rfl⟩,
      ⟨_, rfl, advancedWithRegs_setRegAndFlag s x (sub_eq_ofNat (s.reg y) (s.reg x)) rfl⟩⟩

/-- Settles O22: the result and the bit shifted out are functions of the old Vx alone, so `y` does not matter. -/
theorem shiftsSetBitShiftedOut : Obligations.ShiftsSetBitShiftedOut :=
  fun s x _ =>
    ⟨⟨_, rfl, advancedWithRegs_setRegAndFlag s x (shiftRight_fst (s.reg x)) (shiftRight_snd (s.reg x))⟩,
      ⟨_, rfl, advancedWithRegs_setRegAndFlag s x (shiftLeft_fst (s.reg x)) (shiftLeft_snd (s.reg x))⟩⟩

/-! ## The random byte -/

/-- Using the random byte up changes the host's side alone, so no register's value. -/
@[simp] theorem State.useRnd_reg (s : State) (r : Reg) : s.useRnd.reg r = s.reg r := by
  rw [State.useRnd_eq]
  rfl

/-- Masking clears every bit outside the mask. -/
theorem and_and_not_self (b nn : Byte) : b &&& nn &&& ~~~nn = 0 := by
  rw [BitVec.and_assoc, BitVec.and_not_self]
  exact BitVec.and_zero

/-- RND writes the byte of the draw, masked, to Vx and keeps the host as the draw left it (R122). -/
theorem rnd_of_draw {s : State} {b : Byte} {h : HostSide} (x : Reg) (nn : Byte)
    (draw : s.rndByte = b ∧ s.advance.useRnd = { s.advance with host := h }) :
    (s.advance.useRnd.setReg x (s.rndByte &&& nn)).reg x = b &&& nn ∧
      (s.advance.useRnd.setReg x (s.rndByte &&& nn)).host = h := by
  obtain ⟨rfl, used⟩ := draw
  rw [State.reg_setReg, if_pos rfl, State.setReg_host, used]
  exact ⟨rfl, rfl⟩

/-- Settles O23: Vx gets the masked byte, the other registers stay, and the host's side changes by the two cases of the
random input, a byte laid out or a free one. -/
theorem randomMasksTheRandomInput : Obligations.RandomMasksTheRandomInput := by
  intro s x nn
  refine ⟨s.advance.useRnd.setReg x (s.rndByte &&& nn), rfl, ?frame, ?others, ?masked,
    fun _ _ listed => rnd_of_draw x nn (s.advance.useRnd_listed listed),
    fun free => rnd_of_draw x nn (s.advance.useRnd_free free)⟩
  case frame =>
    rw [State.useRnd_eq]
    rfl
  case others =>
    intro r hr
    rw [State.reg_setReg, if_neg hr, State.useRnd_reg]
    rfl
  case masked => rw [State.reg_setReg, if_pos rfl, and_and_not_self]

end Sys2Proof.Machine
end

section
/-! PROOF. The index register and the decimal store: what each instruction leaves in `I` and in memory, and that it
leaves all else but the advance of `pc` alone (spec/43_memory_index.md R125 to R128; O24, O25, O26). -/

namespace Sys2Proof.Machine

/-! ## Digits and addresses as numbers -/

theorem toNat_add_zextByte (a : Word) (w : Byte) : (a + zextByte w).toNat = (a.toNat + w.toNat) % 65536 := by
  rw [BitVec.toNat_add, toNat_zextByte]

@[simp] theorem toNat_lowNibble (w : Byte) : (lowNibble w).toNat = w.toNat % 16 :=
  BitVec.extractLsb'_toNat 0 4 w

/-- The largest glyph address is 75, so it fits 16 bits (decision D9: the font begins at 0). -/
@[simp] theorem toNat_glyphAddr (d : Nibble) : (glyphAddr d).toNat = 5 * d.toNat := by
  have hd : d.toNat < 16 := d.isLt
  rw [glyphAddr, BitVec.toNat_ofNat, Config.fontBase, Config.glyphSize]
  omega

@[simp] theorem toNat_bcdHundreds (w : Byte) : (bcdHundreds w).toNat = w.toNat / 100 :=
  Nat.mod_eq_of_lt (Nat.lt_of_le_of_lt (Nat.div_le_self _ _) w.isLt)

@[simp] theorem toNat_bcdTens (w : Byte) : (bcdTens w).toNat = w.toNat / 10 % 10 :=
  Nat.mod_eq_of_lt (Nat.lt_trans (Nat.mod_lt _ (by decide)) (by decide))

@[simp] theorem toNat_bcdUnits (w : Byte) : (bcdUnits w).toNat = w.toNat % 10 :=
  Nat.mod_eq_of_lt (Nat.lt_trans (Nat.mod_lt _ (by decide)) (by decide))

/-! ## The index register -/

/-- Settles O24: the zero extension keeps the value of the 12 bits. -/
theorem loadIndexZeroExtends : Obligations.LoadIndexZeroExtends :=
  fun _ nnn => ⟨rfl, zextAddr nnn, toNat_zextAddr nnn, rfl⟩

/-- Settles O25: both write `I` alone, with the sum modulo 2^16 or with the address of the low nibble's glyph. -/
theorem indexAddAndGlyphAddress : Obligations.IndexAddAndGlyphAddress := by
  intro s x
  refine ⟨⟨s.i + zextByte (s.reg x), toNat_add_zextByte s.i (s.reg x), rfl⟩,
    ⟨glyphAddr (lowNibble (s.reg x)), ?_, rfl⟩⟩
  rw [toNat_glyphAddr, toNat_lowNibble]

/-! ## The decimal store -/

/-- Two offsets from `I` below the size of memory reduce to the same address only when they are equal (R51). -/
theorem State.indexed_mod_inj (s : State) {j k : Nat} (hj : j < 4096) (hk : k < 4096) :
    s.indexed k % Config.memSize = s.indexed j % Config.memSize ↔ k = j := by
  simp only [State.indexed, Config.memSize]
  omega

/-- Writes at different offsets from `I` do not meet, even where they wrap past the end of memory. -/
theorem State.readByte_writeByte_indexed (s t : State) {j k : Nat} (w : Byte) (hj : j < 4096) (hk : k < 4096) :
    (t.writeByte (s.indexed j) w).readByte (s.indexed k) =
      if k = j then w else t.readByte (s.indexed k) := by
  simp only [State.readByte_writeByte, s.indexed_mod_inj hj hk]

/-- The decimal store leaves the hundreds, the tens and the units of Vx at `I`, `I + 1` and `I + 2` (R128). -/
theorem exec_ldB_readByte_indexed {s t : State} {x : Reg} (h : exec (.ldB x) s = .next t) :
    t.readByte (s.indexed 0) = bcdHundreds (s.reg x) ∧ t.readByte (s.indexed 1) = bcdTens (s.reg x) ∧
      t.readByte (s.indexed 2) = bcdUnits (s.reg x) := by
  cases h
  simp [State.readByte_writeByte_indexed]

/-- Settles O26: the digits' values are those of the bytes stored, and `exec_ldB_readByte_of_ne` is the frame. -/
theorem decimalStoreWritesThreeDigits : Obligations.DecimalStoreWritesThreeDigits := by
  intro s x
  obtain ⟨hundreds, tens, units⟩ := exec_ldB_readByte_indexed (s := s) (x := x) rfl
  refine ⟨rfl, _, rfl, rfl, ?_, ?_, ?_, fun _ others => exec_ldB_readByte_of_ne rfl others⟩
  · rw [hundreds, toNat_bcdHundreds]
  · rw [tens, toNat_bcdTens]
  · rw [units, toNat_bcdUnits]

end Sys2Proof.Machine
end

section
/-! PROOF. The block transfers: what each leaves in memory or in the registers, and that it leaves all else but the
advance of `pc` alone (spec/44_block_transfer.md R130, R131; O27, O28). -/

namespace Sys2Proof.Machine

variable {s t : State} {x : Reg}

/-- A register's number names that register. -/
@[simp] theorem regOfNat_toNat (r : Reg) : regOfNat r.toNat = r := BitVec.ofNat_toNat 4 r

/-- The block store leaves Vk at `I + k` for every k up to x: a later write of the transfer does not meet an earlier
one, since the offsets are below 16 (R130). -/
theorem exec_storeRegs_readByte_indexed (h : exec (.storeRegs x) s = .next t) {k : Reg} (hk : k.toNat ≤ x.toNat) :
    t.readByte (s.indexed k.toNat) = s.reg k := by
  cases h
  have stored := (State.readByte_storeUpTo s.advance (x.toNat + 1) x.isLt (s.indexed k.toNat)).1
    k.toNat (Nat.lt_succ_of_le hk) rfl
  rwa [regOfNat_toNat] at stored

/-- The block store writes memory and advances `pc`; `I` is unchanged (R130, decision D6). -/
theorem exec_storeRegs_frame (h : exec (.storeRegs x) s = .next t) : t = { s with pc := s.pc + 2, mem := t.mem } := by
  cases h
  exact State.storeUpTo_eq s.advance (x.toNat + 1)

/-- The block load writes registers and advances `pc`; `I` is unchanged (R131, decision D6). -/
theorem exec_loadRegs_frame (h : exec (.loadRegs x) s = .next t) : t = { s with pc := s.pc + 2, v := t.v } := by
  cases h
  exact State.loadUpTo_eq s.advance (x.toNat + 1)

/-- The block load leaves byte `I + k` in Vk for every k up to x, and the registers above x as they were (R131). -/
theorem exec_loadRegs_reg (h : exec (.loadRegs x) s = .next t) (r : Reg) :
    t.reg r = if r.toNat ≤ x.toNat then s.readByte (s.indexed r.toNat) else s.reg r := by
  cases h
  rw [State.reg_loadUpTo s.advance (x.toNat + 1) x.isLt r]
  exact if_congr Nat.lt_succ_iff rfl rfl

/-- Settles O27: the bytes stored, and `exec_storeRegs_readByte_of_ne` is the frame of the other bytes. -/
theorem blockStoreWritesRegistersInOrder : Obligations.BlockStoreWritesRegistersInOrder :=
  fun _ _ => ⟨_, rfl, exec_storeRegs_frame rfl, fun _ hk => exec_storeRegs_readByte_indexed rfl hk,
    fun _ others => exec_storeRegs_readByte_of_ne rfl others⟩

/-- Settles O28: the registers loaded and kept, and the frame of the rest. -/
theorem blockLoadReadsRegistersInOrder : Obligations.BlockLoadReadsRegistersInOrder :=
  fun _ _ => ⟨_, rfl, exec_loadRegs_frame rfl, exec_loadRegs_reg rfl⟩

end Sys2Proof.Machine
end

section
/-! PROOF. The display: what CLS and DRW do to each pixel and to VF, and that they leave all else but the advance of
`pc` alone (spec/45_display.md R134 to R136; O32, O33, O34). -/

namespace Sys2Proof.Machine

variable {s t : State} {x y : Reg} {n : Nibble}

/-- Settles O32: beside the advance, CLS writes the cleared frame buffer alone. -/
theorem clearTurnsEveryPixelOff : Obligations.ClearTurnsEveryPixelOff :=
  fun _ => ⟨rfl, _, rfl, rfl, FrameBuffer.pixel_clear⟩

/-! ## One drawing -/

/-- DRW writes registers and the frame buffer, and advances `pc` (R136). -/
theorem exec_drw_frame (h : exec (.drw x y n) s = .next t) : t = { s with pc := s.pc + 2, v := t.v, fb := t.fb } := by
  cases h
  rfl

/-- DRW toggles the pixels under the sprite's 1 bits and no others (R134, R136). -/
theorem exec_drw_pixel (h : exec (.drw x y n) s = .next t) (X : Fin Config.fbWidth) (Y : Fin Config.fbHeight) :
    t.fb.pixel X Y = true ↔ (s.fb.pixel X Y = true ↔ ¬ spriteCovers s (s.reg x) (s.reg y) n X Y) := by
  cases h
  rw [spriteCovers_iff]
  exact s.pixel_drawRows (s.fb, false) (s.reg x) (s.reg y) n.toNat n.isLt.le X Y

theorem flagByte_eq_one_iff {f : Bool} : flagByte f = 1 ↔ f = true := by
  cases f <;> decide

/-- DRW leaves 1 in VF exactly if a pixel under one of the sprite's 1 bits was on (R136). -/
theorem exec_drw_flag_eq_one_iff (h : exec (.drw x y n) s = .next t) :
    t.reg vF = 1 ↔ ∃ X Y, spriteCovers s (s.reg x) (s.reg y) n X Y ∧ s.fb.pixel X Y = true := by
  cases h
  have hit := s.hit_drawRows (s.fb, false) (s.reg x) (s.reg y) n.toNat n.isLt.le
  rw [State.reg_setReg, if_pos rfl, flagByte_eq_one_iff, hit]
  simp [spriteCovers_iff]

/-- Settles O33: DRW names no register, so VF alone can change, and where no covered pixel was on, the flag is not 1 and
so it is 0. -/
theorem drawTogglesCoveredPixelsAndReportsCollision : Obligations.DrawTogglesCoveredPixelsAndReportsCollision := by
  intro s x y n
  obtain ⟨t, h, -⟩ := exec_effect (.drw x y n) s
  obtain ⟨others, flag⟩ := onlyDestinationsAndFlagChangeRegisters _ s t h
  have collision := exec_drw_flag_eq_one_iff h
  refine ⟨t, h, exec_drw_frame h, exec_drw_pixel h, fun r hr => others r rfl fun hvF => absurd hvF hr,
    collision.2, fun allOff => ?_⟩
  have noCollision : t.reg vF ≠ 1 := by
    intro one
    obtain ⟨X, Y, hcovered, hon⟩ := collision.1 one
    simp [allOff X Y hcovered] at hon
  exact (flag rfl).resolve_right noCollision

/-! ## Two drawings -/

/-- Drawing moves no sprite: `I` and memory are as before, so the same coordinates cover the same pixels (R134). -/
theorem spriteCovers_of_exec_drw (h : exec (.drw x y n) s = .next t) (cx cy : Byte) (m : Nibble)
    (X : Fin Config.fbWidth) (Y : Fin Config.fbHeight) : spriteCovers t cx cy m X Y ↔ spriteCovers s cx cy m X Y := by
  cases h
  rfl

/-- Settles O34: both drawings cover the same pixels; toggling them twice restores each, and a covered pixel is on
between the two drawings exactly if it was off before them. -/
theorem drawingTwiceRestoresTheFrameBuffer : Obligations.DrawingTwiceRestoresTheFrameBuffer := by
  intro s t u x y x' y' n first hx hy second
  have firstPixel := exec_drw_pixel first
  have secondPixel := exec_drw_pixel second
  have secondFlag := exec_drw_flag_eq_one_iff second
  simp only [hx, hy, spriteCovers_of_exec_drw first] at secondPixel secondFlag
  refine ⟨FrameBuffer.ext_pixel fun X Y => ?pixels, ?memory, ?flag⟩
  case pixels =>
    rw [Bool.eq_iff_iff, secondPixel, firstPixel]
    by_cases hcovered : spriteCovers s (s.reg x) (s.reg y) n X Y <;> simp [hcovered]
  case memory =>
    exact (exec_mem_of_stores_nothing rfl second).trans (exec_mem_of_stores_nothing rfl first)
  case flag =>
    have turnedOn (X Y) (hcovered : spriteCovers s (s.reg x) (s.reg y) n X Y) :
        t.fb.pixel X Y = true ↔ s.fb.pixel X Y = false := by
      simp [firstPixel, hcovered]
    rw [secondFlag]
    exact exists₂_congr fun X Y => and_congr_right (turnedOn X Y)

end Sys2Proof.Machine
end

section
/-! PROOF. Input: the two key skips, and the key wait from its entry to the press that ends it (spec/46_input.md R140 to
R143, spec/50_interfaces.md R158; O36, O37, O38, O39). -/

namespace Sys2Proof.Machine

/-! ## Key skips -/

/-- The key an instruction names is a bit of the keypad's word, numbered by the register modulo 16 (decision D7). -/
theorem State.key_lowNibble (s : State) (w : Byte) : s.key (lowNibble w) = s.keys.getLsbD (w.toNat % 16) := by
  rw [State.key, toNat_lowNibble]

/-- Settles O36: both are the skip on the same key's state, SKNP on its negation. -/
theorem keySkipsTestLowNibbleKey : Obligations.KeySkipsTestLowNibbleKey := by
  intro s x
  rw [← State.key_lowNibble]
  constructor
  case left =>
    calc exec (.skp x) s = .next (s.advance.skipIf (decide (s.key (lowNibble (s.reg x)) = true))) := by
          rw [Bool.decide_eq_true]; rfl
      _ = _ := next_advance_skipIf s _
  case right =>
    calc exec (.sknp x) s = .next (s.advance.skipIf (decide (¬ s.key (lowNibble (s.reg x)) = true))) := by
          rw [decide_not, Bool.decide_eq_true]; rfl
      _ = _ := by rw [next_advance_skipIf, ite_not]

/-! ## SetKey -/

/-- SetKey writes its key alone of the keys, whether or not it ends a wait (R158). -/
theorem State.key_setKey (s : State) (k j : Nibble) (pressed : Bool) :
    (s.setKey k pressed).key j = if j = k then pressed else s.key j := by
  by_cases hc : s.runState = .awaitingKey ∧ pressed = true ∧ s.key k = false
  · obtain ⟨hw, rfl, hk⟩ := hc
    rw [State.setKey_completes hw hk]
    exact s.key_writeKey k j true
  · rw [State.setKey_plain hc]
    exact s.key_writeKey k j pressed

/-- A SetKey that repeats the key's state is no new press, and it writes what the key holds (decision D34). -/
theorem State.setKey_same (s : State) (k : Nibble) : s.setKey k (s.key k) = s := by
  have noPress : ¬ (s.runState = .awaitingKey ∧ s.key k = true ∧ s.key k = false) := by
    rintro ⟨-, on, off⟩
    exact absurd (on.symm.trans off) (by decide)
  rw [State.setKey_plain noPress, State.writeKey_same]

/-- A completed wait leaves the key's code in the latched register and the others as they were (R143). -/
theorem State.reg_completeWait (s : State) (k : Nibble) (r : Reg) :
    (s.completeWait k).reg r = if r = s.waitReg then k.setWidth 8 else s.reg r :=
  s.reg_setReg s.waitReg r (zextNibble k)

/-- Settles O38 by the two things SetKey can do, completing a wait and writing the key. -/
theorem setKeyWritesKeyAndCompletesWait : Obligations.SetKeyWritesKeyAndCompletesWait := by
  intro s k pressed
  refine ⟨s.setKey k pressed, rfl, fun j => s.key_setKey k j pressed, ?completes, ?plain, ?same⟩
  case completes =>
    rintro ⟨hw, rfl, hk⟩
    rw [State.setKey_completes hw hk]
    exact ⟨rfl, (s.writeKey k true).reg_completeWait k⟩
  case plain =>
    intro hc
    rw [State.setKey_plain hc]
    rfl
  case same =>
    rintro rfl
    exact s.setKey_same k

/-! ## The key wait -/

/-- Settles O37: the advance of R92 is taken back, so only the wait's own two items change. -/
theorem keyWaitSuspendsAtTheInstruction : Obligations.KeyWaitSuspendsAtTheInstruction :=
  fun _ _ => rfl

/-- Settles O39: ticks step the timers alone, so the core still waits for register x at the same `pc` with key k
released; there a Cycle has no effect (R91), and the press of k completes the wait. -/
theorem keyWaitEndsWithTheKeysCode : Obligations.KeyWaitEndsWithTheKeysCode := by
  intro s x k ticks _ released
  refine ⟨{ s with waitReg := x, runState := .awaitingKey }, ?_⟩
  rw [State.iterate_tick]
  obtain ⟨u, press, -, completes, -, -⟩ := setKeyWritesKeyAndCompletesWait
    { s with waitReg := x, runState := .awaitingKey, dt := timerStep^[ticks] s.dt, st := timerStep^[ticks] s.st } k true
  obtain ⟨frame, registers⟩ := completes ⟨rfl, rfl, released⟩
  exact ⟨u, keyWaitSuspendsAtTheInstruction s x, State.cycle_of_not_running (by simp), press,
    by rw [frame], by rw [frame], registers⟩

end Sys2Proof.Machine
end

section
/-! PROOF. The timer instructions, and that a tick commutes with every instruction that names no timer
(spec/47_timers.md R146 to R149; O41, O43). -/

namespace Sys2Proof.Machine

/-- Settles O41: LD Vx,DT has the shape of a register writer, the other two write their timer alone. -/
theorem timerInstructionsMoveTimerValues : Obligations.TimerInstructionsMoveTimerValues :=
  fun s x => ⟨⟨rfl, _, rfl, advancedWithRegs_setReg s x rfl⟩, ⟨rfl, rfl⟩, ⟨rfl, rfl⟩⟩

/-! ## A tick and the shared operations -/

section
variable (s : State)

theorem State.skipIf_tick (c : Bool) : s.tick.skipIf c = (s.skipIf c).tick := by cases c <;> rfl

/-- The draw depends on the host's side, which a tick leaves alone. -/
theorem State.useRnd_tick : s.tick.useRnd = s.useRnd.tick := by
  simp only [State.useRnd, State.tick_host]
  split <;> rfl

theorem State.storeUpTo_tick (n : Nat) : s.tick.storeUpTo n = (s.storeUpTo n).tick := by
  induction n with
  | zero => rfl
  | succ n ih => rw [State.storeUpTo, ih]; rfl

theorem State.loadUpTo_tick (n : Nat) : s.tick.loadUpTo n = (s.loadUpTo n).tick := by
  induction n with
  | zero => rfl
  | succ n ih => rw [State.loadUpTo, ih]; rfl

/-- What is drawn depends on `I` and memory, which a tick leaves alone. -/
theorem State.drawRows_tick (k : Canvas) (cx cy : Byte) (n : Nat) :
    s.tick.drawRows k cx cy n = s.drawRows k cx cy n := by
  induction n with
  | zero => rfl
  | succ n ih => rw [State.drawRows, ih]; rfl

end

/-! ## A tick and the instructions -/

section
variable {s t : State}

theorem exec_call_tick {nnn : Addr} (h : exec (.call nnn) s = .next t) : exec (.call nnn) s.tick = .next t.tick := by
  by_cases full : s.sp = s.params.stackDepth
  · cases (exec_call_of_full full).symm.trans h
    exact exec_call_of_full (s := s.tick) full
  · cases (exec_call_of_room full).symm.trans h
    exact exec_call_of_room (s := s.tick) full

theorem exec_ret_tick (h : exec .ret s = .next t) : exec .ret s.tick = .next t.tick := by
  rcases stack_cases s.stack with empty | ⟨ws, w, newest⟩
  · cases (exec_ret_of_empty empty).symm.trans h
    exact exec_ret_of_empty (s := s.tick) empty
  · cases (exec_ret_of_append newest).symm.trans h
    exact exec_ret_of_append (s := s.tick) newest

theorem exec_rnd_tick {x : Reg} {nn : Byte} (h : exec (.rnd x nn) s = .next t) :
    exec (.rnd x nn) s.tick = .next t.tick := by
  cases h
  change Host.Outcome.next (s.advance.tick.useRnd.setReg x (s.rndByte &&& nn)) = _
  rw [State.useRnd_tick]
  rfl

theorem exec_drw_tick {x y : Reg} {n : Nibble} (h : exec (.drw x y n) s = .next t) :
    exec (.drw x y n) s.tick = .next t.tick := by
  cases h
  simp only [exec, execDrw, State.drawRows_tick]
  rfl

/-- Settles O43: what an instruction reads is no timer, and what it writes is no timer, so the tick's two writes can
stand before it or after it. -/
theorem tickIsInvisibleToOtherInstructions : Obligations.TickIsInvisibleToOtherInstructions := by
  intro i s t noTimer h
  cases i
  case ldVxDt | ldDtVx | ldStVx => simp at noTimer
  case call => exact exec_call_tick h
  case ret => exact exec_ret_tick h
  case rnd => exact exec_rnd_tick h
  case drw => exact exec_drw_tick h
  all_goals cases h
  case storeRegs => exact congrArg _ (s.advance.storeUpTo_tick _)
  case loadRegs => exact congrArg _ (s.advance.loadUpTo_tick _)
  case seImm | sneImm | seReg | sneReg | skp | sknp => exact congrArg _ (s.advance.skipIf_tick _)
  all_goals rfl

end

end Sys2Proof.Machine
end

section
/-! PROOF. The three views of the core that the host reads (spec/50_interfaces.md R159 to R161, R164; O35, O44, O51). -/

namespace Sys2Proof.Machine

/-! ## The display view -/

/-- Rows laid end to end as one number, the first lowest: what the display view folds the frame buffer into (R159). -/
def flatRows (rows : List (BitVec Config.fbWidth)) : Nat :=
  rows.foldr (fun row acc => row.toNat + 2 ^ Config.fbWidth * acc) 0

theorem State.displayView_eq (s : State) : s.displayView = BitVec.ofNat 2048 (flatRows s.fb.toList) := rfl

/-- The first row is the lowest 64 bits, so bit `y * 64 + x` of the rest is bit `(y + 1) * 64 + x` of the whole. -/
theorem testBit_flatRows (rows : List (BitVec Config.fbWidth)) {x : Nat} (hx : x < 64) (y : Nat)
    (hy : y < rows.length) : (flatRows rows).testBit (y * 64 + x) = rows[y].getLsbD x := by
  induction rows generalizing y with
  | nil => exact absurd hy (Nat.not_lt_zero y)
  | cons row rows ih =>
    have split : flatRows (row :: rows) = 2 ^ 64 * flatRows rows + row.toNat := Nat.add_comm _ _
    rw [split, Nat.testBit_two_pow_mul_add (i := 64) _ row.isLt]
    cases y with
    | zero =>
      rw [Nat.zero_mul, Nat.zero_add, if_pos hx]
      rfl
    | succ y =>
      have skip : (y + 1) * 64 + x - 64 = y * 64 + x := by omega
      rw [if_neg (by omega), skip, ih y (Nat.lt_of_succ_lt_succ hy), List.getElem_cons_succ]

/-- Settles O35: the frame buffer's 2048 bits all fit the view, and row Y stands 64 * Y bits up in it. -/
theorem displayViewIsRowMajor : Obligations.DisplayViewIsRowMajor := by
  intro s X Y
  have hX : X.val < 64 := X.isLt
  have hY : Y.val < 32 := Y.isLt
  have fits : Y.val * 64 + X.val < 2048 := by omega
  rw [State.displayView_eq, BitVec.getLsbD_ofNat, decide_eq_true fits, Bool.true_and,
    testBit_flatRows s.fb.toList hX Y.val (by simp)]
  rfl

/-! ## The audio and status views -/

/-- Settles O44: the view holds ST, and its bit decides the comparison. -/
theorem audioViewShowsSoundTimer : Obligations.AudioViewShowsSoundTimer :=
  fun _ => ⟨rfl, decide_eq_true_iff⟩

theorem RunState.code_inj {r q : RunState} : r.code = q.code ↔ r = q := by
  cases r <;> cases q <;> decide

theorem ErrKind.code_inj {k l : ErrKind} : k.code = l.code ↔ k = l := by
  cases k <;> cases l <;> decide

theorem RunState.toNat_code_eq_iff (r q : RunState) : r.code.toNat = q.code.toNat ↔ r = q :=
  BitVec.toNat_inj.trans RunState.code_inj

theorem ErrKind.toNat_code_eq_iff (k l : ErrKind) : k.code.toNat = l.code.toNat ↔ k = l :=
  BitVec.toNat_inj.trans ErrKind.code_inj

/-- Settles O51: both codes are injective, so the view determines the four items it is made of. -/
theorem statusViewShowsRunStateAndLatch : Obligations.StatusViewShowsRunStateAndLatch := by
  constructor
  case left =>
    intro s
    have run := s.runState.toNat_code_eq_iff
    have kind := s.errKind.toNat_code_eq_iff
    exact ⟨run .running, run .awaitingKey, run .halted, kind .none, kind .unknownOpcode, kind .stackOverflow,
      kind .stackUnderflow, kind .programTooLarge⟩
  case right =>
    intro s t
    rw [State.statusView, State.statusView, StatusView.mk.injEq, RunState.code_inj, ErrKind.code_inj]

end Sys2Proof.Machine
end

section
/-! PROOF. Load and the host's order of events: what a Load leaves in memory, and that a run carries out the events one
after another (spec/50_interfaces.md R151, R152, R155; O47, O57, O58). -/

namespace Sys2Proof.Machine

variable {s t : State} {e : Event} {es : List Event}

/-! ## Load -/

/-- Settles O47 by the three things a Load can do. -/
theorem loadCopiesFittingProgramOrHalts : Obligations.LoadCopiesFittingProgramOrHalts := by
  intro s bytes
  refine ⟨fun hr fits => ?fits, fun hr large => ?large, fun hn => ?notRunning⟩
  case fits =>
    refine ⟨s.writeBytes 0x200 bytes, congrArg _ (State.load_of_fits hr fits), State.writeBytes_eq bytes s 0x200,
      fun a ha => ?_⟩
    rw [State.readByte_writeBytes bytes s 0x200 a fits ha]
    split
    next inside => exact (List.getD_eq_getElem _ _ _).symm
    next outside => rfl
  case large => exact congrArg _ (State.load_of_large hr large)
  case notRunning => exact congrArg _ (State.load_of_not_running hn bytes)

/-! ## What no event touches -/

/-- A Load writes memory or raises an error (R155, R174). -/
theorem State.load_eq (s : State) (bytes : List Byte) : s.load bytes =
    { s with mem := (s.load bytes).mem, runState := (s.load bytes).runState, errKind := (s.load bytes).errKind,
             errAddr := (s.load bytes).errAddr, errBits := (s.load bytes).errBits } := by
  rcases s.load_cases bytes with ⟨-, -, he⟩ | ⟨-, -, he⟩ | ⟨-, he⟩ <;> rw [he]
  · rw [State.writeBytes_eq]
  · rfl

/-- A SetKey writes its key and at most ends a wait (R143, R158). -/
theorem State.setKey_eq (s : State) (k : Nibble) (pressed : Bool) : s.setKey k pressed =
    { s with v := (s.setKey k pressed).v, pc := (s.setKey k pressed).pc, keys := (s.setKey k pressed).keys,
             runState := (s.setKey k pressed).runState } := by
  by_cases hc : s.runState = .awaitingKey ∧ pressed = true ∧ s.key k = false
  · obtain ⟨hw, rfl, hk⟩ := hc
    rw [State.setKey_completes hw hk]
    rfl
  · rw [State.setKey_plain hc]
    rfl

/-- `t` has the parameters of `s` and, but for the random input, all that the host of `s` has laid out (logs 1 to 3). -/
def KeepsHost (s t : State) : Prop :=
  t.params = s.params ∧ t.host = { s.host with rndIn := t.host.rndIn, draws := t.host.draws }

theorem Effect.keepsHost {i : Instr} (effect : Effect s i t) : KeepsHost s t :=
  ⟨effect.params_eq, by cases effect <;> rfl⟩

theorem State.deliver_keepsHost (h : s.deliver e = .next t) : KeepsHost s t := by
  cases e with
  | reset => cases h; exact ⟨rfl, rfl⟩
  | tick => cases h; exact ⟨rfl, rfl⟩
  | load bytes =>
    cases h
    rw [State.load_eq]
    exact ⟨rfl, rfl⟩
  | setKey k pressed =>
    cases h
    rw [State.setKey_eq]
    exact ⟨rfl, rfl⟩
  | cycle =>
    rcases s.cycle_cases with ⟨i, -, -, he⟩ | ⟨-, -, he⟩ | ⟨-, he⟩
    · exact (effect_of_exec (he.symm.trans h)).keepsHost
    · cases he.symm.trans h; exact ⟨rfl, rfl⟩
    · cases he.symm.trans h; exact ⟨rfl, rfl⟩

/-! ## One step -/

/-- A repeated event is taken off a copy of the loop, which stands in the schedule; the loop itself stays (log 2). -/
theorem State.takeEvent_loop (s : State) : s.takeEvent.host.loop = s.host.loop := by
  unfold State.takeEvent
  split <;> rfl

theorem State.takeEvent_params (s : State) : s.takeEvent.params = s.params := by
  rw [State.takeEvent_eq]

/-- Settles O57: every event completes, and what the event carried out leaves of the host is what taking it off left. -/
theorem stepCarriesOutTheNextEvent : Obligations.StepCarriesOutTheNextEvent := by
  intro s
  obtain ⟨t, h⟩ := s.takeEvent.deliver_total s.nextEvent
  obtain ⟨params, host⟩ := State.deliver_keepsHost h
  refine ⟨t, h, h, params.trans s.takeEvent_params, ?schedule, ?loop, ?turns, fun _ _ => State.next_scheduled,
    fun _ _ => State.next_repeated, State.next_free⟩
  case schedule => rw [host]
  case loop => rw [host]; exact s.takeEvent_loop
  case turns => rw [host]

/-! ## A run over laid-out events -/

theorem State.load_withSchedule (s : State) (es : List Event) (bytes : List Byte) :
    (s.withSchedule es).load bytes = (s.load bytes).withSchedule es := by
  rcases s.load_cases bytes with ⟨hr, fits, he⟩ | ⟨hr, large, he⟩ | ⟨hn, he⟩ <;> rw [he]
  · rw [← State.writeBytes_withSchedule]
    exact State.load_of_fits (s := s.withSchedule es) hr fits
  · exact State.load_of_large (s := s.withSchedule es) hr large
  · exact State.load_of_not_running (s := s.withSchedule es) hn bytes

theorem State.setKey_withSchedule (s : State) (es : List Event) (k : Nibble) (pressed : Bool) :
    (s.withSchedule es).setKey k pressed = (s.setKey k pressed).withSchedule es := by
  by_cases hc : s.runState = .awaitingKey ∧ pressed = true ∧ s.key k = false
  · obtain ⟨hw, rfl, hk⟩ := hc
    rw [State.setKey_completes hw hk]
    exact State.setKey_completes (s := s.withSchedule es) hw hk
  · rw [State.setKey_plain hc]
    exact State.setKey_plain (s := s.withSchedule es) hc

/-- No event reads or changes the schedule (log 2). -/
theorem State.deliver_withSchedule (es : List Event) (h : s.deliver e = .next t) :
    (s.withSchedule es).deliver e = .next (t.withSchedule es) := by
  cases e with
  | reset => cases h; rfl
  | tick => cases h; rfl
  | load bytes => cases h; exact congrArg _ (s.load_withSchedule es bytes)
  | setKey k pressed => cases h; exact congrArg _ (s.setKey_withSchedule es k pressed)
  | cycle =>
    rcases s.cycle_cases with ⟨i, hr, hd, he⟩ | ⟨hr, hd, he⟩ | ⟨hn, he⟩
    · exact (State.cycle_of_decode (s := s.withSchedule es) hr hd).trans (exec_withSchedule i es (he.symm.trans h))
    · cases he.symm.trans h
      exact State.cycle_of_unknown (s := s.withSchedule es) hr hd
    · cases he.symm.trans h
      exact State.cycle_of_not_running (s := s.withSchedule es) hn

/-- The first laid-out event is carried out, and the others are still laid out after it. -/
theorem step_withSchedule_cons (es : List Event) (h : s.deliver e = .next t) :
    step (s.withSchedule (e :: es)) = .next (t.withSchedule es) := by
  obtain ⟨next, take⟩ := State.next_scheduled (s := s.withSchedule (e :: es)) rfl
  rw [step, next, take]
  exact State.deliver_withSchedule (s := s) es h

/-- A run's first step, for any machine; `core_run_succ` reads it for this one. -/
theorem run_succ_of_step {M : Host.Core} {s t : M.State} (n : Nat) (h : M.step s = .next t) :
    M.run (n + 1) s = M.run n t := by
  rw [Host.Core.run, h]

theorem core_run_succ (n : Nat) (h : step s = .next t) : core.run (n + 1) s = core.run n t :=
  run_succ_of_step (M := core) n h

theorem core_run_add {m : Nat} (n : Nat) (h : core.run m s = .next t) : core.run (m + n) s = core.run n t := by
  induction m generalizing s with
  | zero =>
    cases h
    rw [Nat.zero_add]
  | succ m ih =>
    obtain ⟨u, hu, -⟩ := stepCarriesOutTheNextEvent s
    rw [core_run_succ m hu] at h
    rw [Nat.succ_add, core_run_succ _ hu, ih h]

theorem deliverAll_cons (es : List Event) (h : s.deliver e = .next t) : deliverAll s (e :: es) = deliverAll t es := by
  rw [deliverAll, h]

/-- Every list of events is carried out to its end, and the host keeps what it has laid out. -/
theorem deliverAll_total (s : State) (es : List Event) : ∃ t, deliverAll s es = .next t ∧
    t.host.schedule = s.host.schedule ∧ t.host.loop = s.host.loop := by
  induction es generalizing s with
  | nil => exact ⟨s, rfl, rfl, rfl⟩
  | cons e es ih =>
    obtain ⟨u, hu⟩ := s.deliver_total e
    obtain ⟨-, host⟩ := State.deliver_keepsHost hu
    obtain ⟨t, ht, schedule, loop⟩ := ih u
    exact ⟨t, (deliverAll_cons es hu).trans ht, by rw [schedule, host], by rw [loop, host]⟩

theorem deliverAll_append (es fs : List Event) (h : deliverAll s es = .next t) :
    deliverAll s (es ++ fs) = deliverAll t fs := by
  induction es generalizing s with
  | nil => cases h; rfl
  | cons e es ih =>
    obtain ⟨u, hu⟩ := s.deliver_total e
    rw [deliverAll_cons es hu] at h
    rw [List.cons_append, deliverAll_cons _ hu, ih h]

/-- As many steps as there are laid-out events carry them out, whatever is laid out after them (R152). -/
theorem core_run_schedule (s : State) (es rest : List Event) :
    core.run es.length (s.withSchedule (es ++ rest)) = deliverAll (s.withSchedule rest) es := by
  induction es generalizing s with
  | nil => rfl
  | cons e es ih =>
    obtain ⟨t, ht⟩ := s.deliver_total e
    have first : core.run (e :: es).length (s.withSchedule (e :: es ++ rest)) =
        core.run es.length (t.withSchedule (es ++ rest)) := core_run_succ _ (step_withSchedule_cons _ ht)
    rw [first, ih t]
    exact (deliverAll_cons es (State.deliver_withSchedule rest ht)).symm

/-! ## A run over repeated events -/

theorem State.withSchedule_self (h : s.host.schedule = es) : s.withSchedule es = s := by
  rw [State.withSchedule, ← h]

/-- With nothing laid out, the host's repeated events are as good as laid out for the next step. -/
theorem step_withSchedule_loop (he : es ≠ []) (schedule : s.host.schedule = []) (loop : s.host.loop = es) :
    step s = step (s.withSchedule es) := by
  obtain ⟨e, es, rfl⟩ := List.exists_cons_of_ne_nil he
  obtain ⟨next, take⟩ := State.next_repeated schedule loop
  rw [step, next, take]
  rfl

theorem core_run_loop (he : es ≠ []) (schedule : s.host.schedule = []) (loop : s.host.loop = es) :
    core.run es.length s = deliverAll s es := by
  obtain ⟨n, hn⟩ := Nat.exists_eq_succ_of_ne_zero (mt List.length_eq_zero_iff.1 he)
  obtain ⟨t, ht, -⟩ := stepCarriesOutTheNextEvent s
  have ht' : step (s.withSchedule es) = .next t := step_withSchedule_loop he schedule loop ▸ ht
  have laidOut := core_run_schedule s es []
  rw [List.append_nil, State.withSchedule_self schedule] at laidOut
  rw [← laidOut, hn, core_run_succ n ht, core_run_succ n ht']

/-- A round of the loop leads to a host that is about to begin the next one. -/
theorem core_run_rounds (he : es ≠ []) (n : Nat) (schedule : s.host.schedule = []) (loop : s.host.loop = es) :
    core.run (n * es.length) s = deliverAll s (List.replicate n es).flatten := by
  induction n generalizing s with
  | zero => rw [Nat.zero_mul]; rfl
  | succ n ih =>
    obtain ⟨t, round, schedule', loop'⟩ := deliverAll_total s es
    rw [Nat.succ_mul, Nat.add_comm, core_run_add _ ((core_run_loop he schedule loop).trans round),
      ih (schedule'.trans schedule) (loop'.trans loop), List.replicate_succ, List.flatten_cons,
      deliverAll_append es _ round]

/-- Settles O58, by induction on the laid-out events and on the number of rounds. -/
theorem everyOrderOfEventsIsARun : Obligations.EveryOrderOfEventsIsARun :=
  fun s es => ⟨core_run_schedule s es, fun n he => core_run_rounds he n⟩

end Sys2Proof.Machine
end

section
/-! PROOF. Fatal errors and Halted, and where a Cycle halts or stands still (spec/60_exceptions.md R170 to R181,
spec/70_reset_and_hazards.md R190, R199; O15, O46, O49, O50, O59). -/

namespace Sys2Proof.Machine

variable {i : Instr} {s t : State} {e : Event}

/-- Settles O49: a halted core is not Running, so Cycle and Load do nothing, and it waits for no key. -/
theorem haltedIsLeftByResetAlone : Obligations.HaltedIsLeftByResetAlone := by
  intro s e hh
  have hn : s.runState ≠ .running := by simp [hh]
  obtain ⟨t, h⟩ := s.deliver_total e
  refine ⟨t, h, fun he => ?stays, fun he => ?leaves⟩
  case stays =>
    cases e with
    | reset => exact absurd rfl he
    | tick => cases h; rfl
    | cycle => cases (State.cycle_of_not_running hn).symm.trans h; rfl
    | load bytes =>
      cases h
      rw [State.load_of_not_running hn]
    | setKey k pressed =>
      cases h
      have noWait : ¬ (s.runState = .awaitingKey ∧ pressed = true ∧ s.key k = false) := by simp [hh]
      rw [State.setKey_plain noWait]
      rfl
  case leaves =>
    subst he
    cases h
    rfl

/-! ## Every error is one `raise` -/

/-- An instruction that halts the core has raised a stack error, with its own address and word (R172, R173, R179). -/
theorem exec_raises (hs : s.safe) (h : exec i s = .next t) (ht : ¬ t.safe) :
    ∃ k, k ≠ .none ∧ k ≠ .programTooLarge ∧ t = s.raise k s.pc i.encode := by
  cases effect_of_exec h with
  | overflow nnn full => exact ⟨.stackOverflow, by decide, by decide, rfl⟩
  | underflow empty => exact ⟨.stackUnderflow, by decide, by decide, rfl⟩
  | wait x => exact absurd (show RunState.awaitingKey ≠ .halted by decide) ht
  | _ => exact absurd hs ht

/-- A Cycle that halts the core has raised an error with the address and the word of its fetch (decisions D12, D13). -/
theorem State.cycle_raises (hs : s.safe) (h : s.cycle = .next t) (ht : ¬ t.safe) :
    ∃ k, k ≠ .none ∧ k ≠ .programTooLarge ∧ t = s.raise k s.pc s.fetchWord := by
  rcases s.cycle_cases with ⟨i, -, hd, he⟩ | ⟨-, -, he⟩ | ⟨-, he⟩
  · rw [← encode_of_decode hd]
    exact exec_raises hs (he.symm.trans h) ht
  · cases he.symm.trans h
    exact ⟨.unknownOpcode, by decide, by decide, rfl⟩
  · cases he.symm.trans h
    exact absurd hs ht

/-- Any other event that halts the core is a Load that has raised ProgramTooLarge with zeros (R174). -/
theorem State.deliver_raises (hs : s.safe) (he : e ≠ .cycle) (h : s.deliver e = .next t) (ht : ¬ t.safe) :
    t = s.raise .programTooLarge 0 0 := by
  cases e with
  | cycle => exact absurd rfl he
  | reset => cases h; exact absurd (show RunState.running ≠ .halted by decide) ht
  | tick => cases h; exact absurd hs ht
  | load bytes =>
    cases h
    rcases s.load_cases bytes with ⟨-, -, he⟩ | ⟨-, -, he⟩ | ⟨-, he⟩ <;> rw [he] at ht ⊢
    · rw [State.safe, State.writeBytes_runState] at ht
      exact absurd hs ht
    · exact absurd hs ht
  | setKey k pressed =>
    cases h
    refine absurd ?_ ht
    rw [State.safe, State.setKey_runState]
    split
    · decide
    · exact hs

/-- Settles O50: every error is one `raise` in the state before the event, which writes the run state and the latch. -/
theorem fatalErrorsArePrecise : Obligations.FatalErrorsArePrecise := by
  intro s t e hs h ht
  by_cases he : e = .cycle
  · subst he
    obtain ⟨k, error, notLoad, rfl⟩ := State.cycle_raises hs h ht
    exact ⟨rfl, error, fun _ => ⟨rfl, rfl, notLoad⟩, fun hn => absurd rfl hn⟩
  · cases State.deliver_raises hs he h ht
    exact ⟨rfl, by simp, fun hc => absurd hc he, fun _ => ⟨rfl, rfl, rfl⟩⟩

/-- Settles O15 by the failing outcomes of CALL and RET. -/
theorem stackErrorsLatchAddressAndWord : Obligations.StackErrorsLatchAddressAndWord :=
  fun _ _ => ⟨exec_call_of_full, fun empty => exec_ret_of_empty (List.length_eq_zero_iff.1 empty)⟩

/-! ## Cycles that lead nowhere -/

/-- Right after reset the fetch at 0x0200 finds memory that nothing has loaded (R190). -/
theorem fetchWord_reset : State.reset.fetchWord = 0x0000#16 := by decide

/-- Settles O46: the word 0x0000 is no instruction. -/
theorem cycleBeforeAnyLoadHalts : Obligations.CycleBeforeAnyLoadHalts :=
  State.cycle_of_unknown (s := State.reset) rfl (by rw [fetchWord_reset]; decide)

/-- Settles O59: the word decodes to the jump it encodes, whose one write gives `pc` the value it has. -/
theorem selfJumpIsTerminal : Obligations.SelfJumpIsTerminal := by
  rintro s ⟨hr, nnn, word, hpc⟩
  have hd : decode s.fetchWord = some (.jp nnn) := word ▸ decode_encode (.jp nnn)
  calc s.deliver .cycle = exec (.jp nnn) s := State.cycle_of_decode hr hd
    _ = .next { s with pc := zextAddr nnn } := rfl
    _ = .next s := by rw [← hpc]

end Sys2Proof.Machine
end
